-- ==== Sys2Proof/Word.lean ====
section
/-! DEFINITION. The bit vectors of the block: encoded value (30_encoding.md R70), request word (R77), response word (R81). -/

namespace Sys2Proof

/-- An encoded value, 16 bits (30_encoding.md R70). -/
abbrev Word := BitVec 16

/-- A request word, 64 bits (30_encoding.md R77). -/
abbrev Request := BitVec 64

/-- A response word, 32 bits (30_encoding.md R81). -/
abbrev Response := BitVec 32

end Sys2Proof
end

