-- ==== Sys2Proof/Config.lean ====
section
/-! DEFINITION. What is fixed for the machine (00_scope.md R6, 10_state.md R35), the parameter the spec leaves OPEN, and the
two draws, whose values nothing in the model can see. -/

namespace Sys2Proof

/-- The two readings of multiply's rounding step (00_scope.md R6, 44_multiplier.md R207). The model takes the reading as an
argument; the machine's own reading is the field `mulRound` of State (DESIGN CHOICE, log 2). -/
inductive MulRoundReading where
  /-- the round bit exists only when the renormalising shift discarded it (the spec's default) -/
  | onShift
  /-- the round bit is the low bit of the product significand, shift or no shift -/
  | always
  deriving DecidableEq, Repr

/-- The two unspecified results, by name (00_scope.md R6 and R9). -/
inductive Draw where
  /-- `FROM_INT_OOR`: from_int where the exponent would exceed 31 (41_integer_conversion.md R120) -/
  | fromIntOor
  /-- `ADD_UNDERFLOW`: add where the renormalised exponent is negative (43_adder.md R175) -/
  | addUnderflow
  deriving DecidableEq, Repr

namespace Config

/-- Width of the integer ports, `INT_W` (00_scope.md R6; fixed at 32, log 10). -/
def intW : Nat := 32
/-- Width of the scaling port, `K_W` (00_scope.md R6; fixed at 16, log 10). -/
def kW : Nat := 16
/-- Exponent bias (10_state.md R35). -/
def bias : Nat := 15
/-- The infinity exponent (10_state.md R35). -/
def expInf : Nat := 31
/-- Mask of the sign bit (10_state.md R35). -/
def signMask : Word := 0x8000
/-- Mask of the exponent field (10_state.md R35). -/
def expMask : Word := 0x7C00
/-- Mask of the mantissa field (10_state.md R35). -/
def mantMask : Word := 0x03FF
/-- The reconstructed leading bit (10_state.md R35). -/
def implicit : Nat := 0x400
/-- Reciprocal threshold and seed constant (42_reciprocal_nr.md R150; fixed at 0x7780, log 10). -/
def recipThreshold : Word := 0x7780
/-- The constant 2 of the Newton-Raphson step (42_reciprocal_nr.md R152). -/
def two : Word := 0x4000
/-- The constant 10 of decimal mode (41_integer_conversion.md R126). -/
def ten : Word := 0x4900

/-- The n-th draw, should it be of `FROM_INT_OOR`: a free value, any word (00_scope.md R9; log 3). -/
opaque fromIntOor : Nat → Word
/-- The n-th draw, should it be of `ADD_UNDERFLOW`: a free value, any word (00_scope.md R9; log 3). -/
opaque addUnderflow : Nat → Word

/-- `UNSPECIFIED(d)`, the n-th draw taken (00_scope.md R9). -/
def drawn : Draw → Nat → Word
  | .fromIntOor, n => fromIntOor n
  | .addUnderflow, n => addUnderflow n

end Config

end Sys2Proof
end

