-- ==== Sys2Proof/Syntax.lean ====
section
/-! DEFINITION. The ten requests of the block, with their operands (30_encoding.md R78, R79). -/

namespace Sys2Proof

/-- A decoded request. Words are the 16-bit operands `a` and `b`; `n` is the integer and `k` the scaling count, both as the
numbers the decoder reads (30_encoding.md R78). -/
inductive Instr where
  /-- op 0x0, `from_int(n)` (41_integer_conversion.md R120) -/
  | fromInt (n : Int)
  /-- op 0x1, `to_int(a)` (41_integer_conversion.md R123) -/
  | toInt (a : Word)
  /-- op 0x2, `from_int_with_decimal(n, k)` (41_integer_conversion.md R126) -/
  | fromIntWithDecimal (n : Int) (k : Nat)
  /-- op 0x3, `negate(a)` (40_bitcodec.md R104) -/
  | negate (a : Word)
  /-- op 0x4, `abs(a)` (40_bitcodec.md R105) -/
  | abs (a : Word)
  /-- op 0x5, `reciprocal(a)` (42_reciprocal_nr.md R151) -/
  | reciprocal (a : Word)
  /-- op 0x6, `add(a, b)` (43_adder.md R170) -/
  | add (a b : Word)
  /-- op 0x7, `subtract(a, b)` (43_adder.md R177) -/
  | subtract (a b : Word)
  /-- op 0x8, `multiply(a, b)` (44_multiplier.md R200) -/
  | multiply (a b : Word)
  /-- op 0x9, `divide(a, b)` (45_divider.md R230) -/
  | divide (a b : Word)
  deriving DecidableEq, Repr

end Sys2Proof
end

