-- ==== Sys2Proof/WellFormed.lean ====
section
/-! DEFINITION. When an instruction is one that a request word can hold (30_encoding.md R78). -/

namespace Sys2Proof

/-- `n` is a value of an `INT_W`-bit two's-complement integer (20_memory.md R54). -/
def intFits (n : Int) : Bool :=
  decide (-(2 : Int) ^ (Config.intW - 1) ≤ n) && decide (n < (2 : Int) ^ (Config.intW - 1))

/-- `k` is a value of a `K_W`-bit unsigned count (20_memory.md R54). -/
def countFits (k : Nat) : Bool :=
  decide (k < 2 ^ Config.kW)

/-- The integer and the count fit their fields; a word operand always does. -/
def Instr.wellFormed : Instr → Bool
  | .fromInt n => intFits n
  | .toInt _ => true
  | .fromIntWithDecimal n k => intFits n && countFits k
  | .negate _ => true
  | .abs _ => true
  | .reciprocal _ => true
  | .add _ _ => true
  | .subtract _ _ => true
  | .multiply _ _ => true
  | .divide _ _ => true

end Sys2Proof
end

