-- ==== Sys2Proof/Decode.lean ====
section
/-! DEFINITION. The operation codes and formats, the decoder and the encoder of the request word (30_encoding.md R77 to R82). -/

namespace Sys2Proof

/-- The ten mnemonics, in the order of their op codes (30_encoding.md R79). -/
inductive Mnemonic where
  | fromInt | toInt | fromIntWithDecimal | negate | abs | reciprocal | add | subtract | multiply | divide
  deriving DecidableEq, Repr

/-- The four request formats (30_encoding.md R78). -/
inductive Format where
  /-- integer in -/
  | I
  /-- integer and scaling count -/
  | D
  /-- one word -/
  | U
  /-- two words -/
  | B
  deriving DecidableEq, Repr

/-- The three kinds of malformed request (30_encoding.md R80). -/
inductive Malformed where
  /-- `OP` in 0xA to 0xF -/
  | opCode
  /-- a nonzero `RSV` -/
  | rsv
  /-- a nonzero bit in a field that the request's format says must be zero -/
  | mustBeZero
  deriving DecidableEq, Repr

/-- The `OP` code (30_encoding.md R79). -/
def Mnemonic.opcode : Mnemonic → BitVec 4
  | .fromInt => 0x0
  | .toInt => 0x1
  | .fromIntWithDecimal => 0x2
  | .negate => 0x3
  | .abs => 0x4
  | .reciprocal => 0x5
  | .add => 0x6
  | .subtract => 0x7
  | .multiply => 0x8
  | .divide => 0x9

/-- The mnemonic of an `OP` code; 0xA to 0xF have none (30_encoding.md R79). -/
def Mnemonic.ofOpcode (op : Nat) : Option Mnemonic :=
  match op with
  | 0 => some .fromInt
  | 1 => some .toInt
  | 2 => some .fromIntWithDecimal
  | 3 => some .negate
  | 4 => some .abs
  | 5 => some .reciprocal
  | 6 => some .add
  | 7 => some .subtract
  | 8 => some .multiply
  | 9 => some .divide
  | _ => none

/-- The format column of the op map (30_encoding.md R79). -/
def Mnemonic.format : Mnemonic → Format
  | .fromInt => .I
  | .toInt => .U
  | .fromIntWithDecimal => .D
  | .negate => .U
  | .abs => .U
  | .reciprocal => .U
  | .add => .B
  | .subtract => .B
  | .multiply => .B
  | .divide => .B

/-- The mnemonic as the notation spells it (30_encoding.md R79, R83). -/
def Mnemonic.spelling : Mnemonic → String
  | .fromInt => "from_int"
  | .toInt => "to_int"
  | .fromIntWithDecimal => "from_int_with_decimal"
  | .negate => "negate"
  | .abs => "abs"
  | .reciprocal => "reciprocal"
  | .add => "add"
  | .subtract => "subtract"
  | .multiply => "multiply"
  | .divide => "divide"

/-- All ten, in the order of their op codes. -/
def Mnemonic.all : List Mnemonic :=
  [.fromInt, .toInt, .fromIntWithDecimal, .negate, .abs, .reciprocal, .add, .subtract, .multiply, .divide]

/-- The operation an instruction selects (30_encoding.md R79). -/
def Instr.mnemonic : Instr → Mnemonic
  | .fromInt _ => .fromInt
  | .toInt _ => .toInt
  | .fromIntWithDecimal _ _ => .fromIntWithDecimal
  | .negate _ => .negate
  | .abs _ => .abs
  | .reciprocal _ => .reciprocal
  | .add _ _ => .add
  | .subtract _ _ => .subtract
  | .multiply _ _ => .multiply
  | .divide _ _ => .divide

namespace Request

/-- `OP`, bits 63:60 (30_encoding.md R77). -/
def op (req : Request) : BitVec 4 := req.extractLsb' 60 4
/-- `RSV`, bits 59:48 (30_encoding.md R77). -/
def rsv (req : Request) : BitVec 12 := req.extractLsb' 48 12
/-- `K`, bits 47:32 (30_encoding.md R77). -/
def k (req : Request) : BitVec 16 := req.extractLsb' 32 16
/-- `PAYLOAD`, bits 31:0 (30_encoding.md R77). -/
def payload (req : Request) : BitVec 32 := req.extractLsb' 0 32
/-- The word operand `a`, bits 31:16 (30_encoding.md R78). -/
def a (req : Request) : Word := req.extractLsb' 16 16
/-- The word operand `b`, bits 15:0 (30_encoding.md R78). -/
def b (req : Request) : Word := req.extractLsb' 0 16

end Request

/-- The operands of a request, read by its format: `n` sign-extended from 32 bits, `k` zero-extended from 16 (30_encoding.md R78). -/
def operandsOf (op : Mnemonic) (req : Request) : Instr :=
  match op with
  | .fromInt => .fromInt (Request.payload req).toInt
  | .toInt => .toInt (Request.a req)
  | .fromIntWithDecimal => .fromIntWithDecimal (Request.payload req).toInt (Request.k req).toNat
  | .negate => .negate (Request.a req)
  | .abs => .abs (Request.a req)
  | .reciprocal => .reciprocal (Request.a req)
  | .add => .add (Request.a req) (Request.b req)
  | .subtract => .subtract (Request.a req) (Request.b req)
  | .multiply => .multiply (Request.a req) (Request.b req)
  | .divide => .divide (Request.a req) (Request.b req)

/-- The decoder, total on any 64 bits, its tests in the order of 30_encoding.md R82. -/
def decode (req : Request) : Except Malformed Instr :=
  match Mnemonic.ofOpcode (Request.op req).toNat with
  | none => .error .opCode
  | some op =>
    if Request.rsv req ≠ 0 then .error .rsv
    else if op.format ≠ .D ∧ Request.k req ≠ 0 then .error .mustBeZero
    else if op.format = .U ∧ Request.b req ≠ 0 then .error .mustBeZero
    else .ok (operandsOf op req)

/-- A request word from its fields, `RSV` zero (30_encoding.md R77). -/
def requestWord (op : Mnemonic) (k : BitVec 16) (payload : BitVec 32) : Request :=
  op.opcode ++ (0 : BitVec 12) ++ k ++ payload

/-- The request word of an instruction (30_encoding.md R77 to R79). -/
def encode : Instr → Request
  | .fromInt n => requestWord .fromInt 0 (BitVec.ofInt 32 n)
  | .toInt a => requestWord .toInt 0 (a ++ (0 : Word))
  | .fromIntWithDecimal n k => requestWord .fromIntWithDecimal (BitVec.ofNat 16 k) (BitVec.ofInt 32 n)
  | .negate a => requestWord .negate 0 (a ++ (0 : Word))
  | .abs a => requestWord .abs 0 (a ++ (0 : Word))
  | .reciprocal a => requestWord .reciprocal 0 (a ++ (0 : Word))
  | .add a b => requestWord .add 0 (a ++ b)
  | .subtract a b => requestWord .subtract 0 (a ++ b)
  | .multiply a b => requestWord .multiply 0 (a ++ b)
  | .divide a b => requestWord .divide 0 (a ++ b)

/-- The mask of a format: the bits a request of that format has fixed (30_encoding.md R82). -/
def Format.mask : Format → Request
  | .I => 0xFFFFFFFF00000000
  | .B => 0xFFFFFFFF00000000
  | .D => 0xFFFF000000000000
  | .U => 0xFFFFFFFF0000FFFF

/-- The match of an operation's row, `OP << 60` (30_encoding.md R82). -/
def Mnemonic.matchBits (op : Mnemonic) : Request :=
  (op.opcode.setWidth 64) <<< 60

/-- A request selects the row of `op`: the decoder written as match and mask (30_encoding.md R82). -/
def Mnemonic.selects (op : Mnemonic) (req : Request) : Bool :=
  req &&& op.format.mask == op.matchBits

/-- The request word whose low `nbits` bits are `w`, its other bits 0. A request word is 64 parallel bits with no byte order
(20_memory.md R51, R52), so it is taken as it stands (log 11). -/
def tableRequest (nbits w : Nat) : Request := BitVec.ofNat 64 (w % 2 ^ nbits)

/-- The instruction the decoder reads from an instruction of the opcode table; none is longer than 64 bits (30_encoding.md R77). -/
def decodeTableWord (nbits w : Nat) : Option Instr :=
  if nbits ≤ 64 then (decode (tableRequest nbits w)).toOption else none

end Sys2Proof
end

