-- ==== Sys2Proof/Machine/HostSyntax.lean ====
section
/-! DEFINITION. The host's programs as data (30_encoding.md R83): host variables, each by a number (log 1), and what they hold, operands, statements, and
source lines with nested calls. The host is not part of the block (00_scope.md R13); it is modelled as what issues the requests (log 1). -/

namespace Sys2Proof.Machine

/-- What a host variable or an operand may hold (30_encoding.md R83). -/
inductive Kind where
  | word
  | int
  deriving DecidableEq, Repr

/-- What a host variable holds: an encoded value or an integer (30_encoding.md R83). -/
inductive HostValue where
  | word (w : Word)
  | int (n : Int)
  deriving DecidableEq, Repr

/-- An operand of a statement (30_encoding.md R83). -/
inductive Operand where
  /-- a 4-digit hexadecimal literal -/
  | word (w : Word)
  /-- a decimal literal -/
  | int (n : Int)
  /-- a host variable -/
  | var (v : Nat)
  deriving DecidableEq, Repr

/-- One request of a host program: the notation's statement `%dst = mnemonic operand[, operand]` (30_encoding.md R83), or a request
word that the host presents as it is (95_test_vectors.md P6). -/
inductive Stmt where
  | call (dst : Nat) (op : Mnemonic) (args : List Operand)
  | raw (req : Request)
  deriving DecidableEq, Repr

/-- A call expression of the source's nested form, before it is expanded (30_encoding.md R83). -/
inductive Expr where
  | arg (o : Operand)
  | call1 (op : Mnemonic) (e : Expr)
  | call2 (op : Mnemonic) (e₁ e₂ : Expr)
  deriving DecidableEq, Repr

/-- A line of a host program as it is written. -/
inductive SourceLine where
  /-- a statement -/
  | stmt (s : Stmt)
  /-- `%dst = ` a call expression -/
  | assign (dst : Nat) (e : Expr)
  /-- a call expression alone -/
  | expr (e : Expr)
  deriving DecidableEq, Repr

end Sys2Proof.Machine
end

