-- ==== Sys2Proof/Machine/State.lean ====
section
/-! DEFINITION. The state of the machine, the reasons a step can stop, and the machine right after reset. -/

namespace Sys2Proof.Machine

/-- Why the machine stops with a fault. Every one is the model's treatment of a case the spec calls a fault or gives no step for;
the block itself raises no exception (60_exceptions.md R240). -/
inductive Fault where
  /-- Raised by `step` where the host program has no statement left, so that no request is presented (10_state.md R34,
  70_reset_and_hazards.md R275). Safe: the spec gives no step there (log 4). -/
  | noRequest
  /-- Raised by `readResponse` where no request has been answered yet (70_reset_and_hazards.md R270; 93 I10). Safe. -/
  | noResponse
  /-- Raised by `step` where a statement reads a host variable that holds no value; no request is sent (30_encoding.md R83; 93 I8).
  Safe. -/
  | unwrittenVariable (v : Nat)
  deriving DecidableEq, Repr

/-- Why a step or the assembler gives no meaning. -/
inductive Refusal where
  /-- An instruction that has no meaning yet. No arm of `exec` answers it in this model. Safe. -/
  | notModelled (mnemonic : String)
  /-- `REFUSE(reserved_encoding)`, raised by the decoder of `fp16Core` (30_encoding.md R80, R82); it marks the run refused (log 7). Safe. -/
  | reservedEncoding (why : Malformed)
  /-- A word operand where an integer is expected, or the reverse, or the wrong number of operands: raised by the assembler
  (30_encoding.md R83), and by `step` on a list no assembler accepted (log 8). Safe. -/
  | operandKind
  /-- An integer literal that its request field cannot hold: raised by the assembler, and by `step` on a list no assembler accepted
  (30_encoding.md R83 for the scaling count; log 9). Safe. -/
  | literalRange
  deriving DecidableEq, Repr

/-- What a step reads and writes. The block holds no state (10_state.md R20): `resp` is its output port, `mulRound` its configuration
parameter, `program` and `vars` are the host's, and `draws` is the model's own. -/
structure State where
  /-- the response word last delivered; none until a request is answered (10_state.md R38; log 5) -/
  resp : Option Response
  /-- `MUL_ROUND_READING` (00_scope.md R6, 10_state.md R24); no step writes it (log 2) -/
  mulRound : MulRoundReading
  /-- how many draws were taken (00_scope.md R9; log 3) -/
  draws : Nat
  /-- the host's requests still to be issued, in order (10_state.md R22; log 1) -/
  program : List Stmt
  /-- the host variables that hold a value, in rising order of variable (30_encoding.md R83; log 1) -/
  vars : List (Nat × HostValue)
  deriving DecidableEq, Repr

/-- After reset: no response (10_state.md R38), the default reading (00_scope.md R6), no draw taken (log 3), no program loaded (log 6)
and no host variable written (95_test_vectors.md part 3). -/
def State.reset : State where
  resp := none
  mulRound := .onShift
  draws := 0
  program := []
  vars := []

end Sys2Proof.Machine
end

