-- ==== Sys2Proof/Machine/Ops.lean ====
section
/-! DEFINITION. The shared operations: field extraction, packing, bit length, renormalisation (40_bitcodec.md R100 to R107), the
response port (30_encoding.md R81), the draws (00_scope.md R9) and the host variables (30_encoding.md R83). The block takes no
exception (60_exceptions.md R240, R245), so there is no exception entry and no return here. -/

namespace Sys2Proof.Machine

/-! ### Fields of a word -/

/-- `S(x)`, the sign (40_bitcodec.md R100). -/
def S (x : Word) : Bool := x.getLsbD 15
/-- `E(x)`, the biased exponent, 0 to 31 (40_bitcodec.md R100). -/
def E (x : Word) : Nat := (x.extractLsb' 10 5).toNat
/-- `M(x)`, the mantissa field, 0 to 1023 (40_bitcodec.md R100). -/
def M (x : Word) : Nat := (x.extractLsb' 0 10).toNat

/-- The mask `& 0x3FF` of the pseudocode, on an unbounded integer (00_scope.md R8). -/
def mask10 (v : Nat) : Nat := v &&& 0x3FF

theorem mask10_le (v : Nat) : mask10 v ≤ 1023 := Nat.and_le_right

/-- `pack(s, e, m)`; its domain is carried by the two proofs, so no caller can leave it (40_bitcodec.md R101). -/
def pack (s : Bool) (e m : Nat) (_he : e ≤ 31) (_hm : m ≤ 1023) : Word :=
  BitVec.ofNat 16 (s.toNat <<< 15 ||| e <<< 10 ||| m)

/-- `s << 15`: the signed zero (44_multiplier.md R202). -/
def signedZero (s : Bool) : Word := if s then Config.signMask else 0
/-- `(s << 15) | 0x7C00`: the canonical signed infinity (44_multiplier.md R203). -/
def signedInf (s : Bool) : Word := signedZero s ||| Config.expMask

/-- `bit_length(n)`, which must not be called with 0 and takes the proof that it is not (40_bitcodec.md R103). -/
def bitLength (n : Nat) (_h : 0 < n) : Nat := Nat.log2 n + 1

/-- The shared renormalisation `align10(C)`: the position `d` of the leading 1 and the ten bits below it, truncated (40_bitcodec.md R107). -/
def align10 (C : Nat) (h : 0 < C) : Nat × Nat :=
  let d := bitLength C h - 1
  let m := if 10 ≤ d then mask10 (C >>> (d - 10)) else mask10 (C <<< (10 - d))
  (d, m)

theorem align10_mantissa_le (C : Nat) (h : 0 < C) : (align10 C h).2 ≤ 1023 := by
  unfold align10
  dsimp only
  split <;> exact mask10_le _

/-! ### Results and draws -/

/-- What an operation yields: a word, or `UNSPECIFIED(d)` (00_scope.md R9, R11). -/
inductive Result where
  | value (y : Word)
  | unspecified (d : Draw)
  deriving DecidableEq, Repr

/-- The result is a word of the rules, no draw. -/
def Result.isValue : Result → Bool
  | .value _ => true
  | .unspecified _ => false

/-- The word of a result that is no draw. -/
def Result.word : (r : Result) → r.isValue = true → Word
  | .value y, _ => y

/-- The word a result delivers where `n` draws were taken before it (00_scope.md R9). -/
def Result.settle (n : Nat) : Result → Word
  | .value y => y
  | .unspecified d => Config.drawn d n

/-- How many draws a result takes. -/
def Result.drawCount : Result → Nat
  | .value _ => 0
  | .unspecified _ => 1

/-! ### The response port -/

/-- A response that is an encoded value: `resp[15:0] = y`, `resp[31:16] = 0` (30_encoding.md R81). -/
def State.respondWord (y : Word) (s : State) : State :=
  { s with resp := some (y.setWidth 32) }

/-- A to_int response: `z mod 2^32` (30_encoding.md R81). -/
def State.respondInt (z : Int) (s : State) : State :=
  { s with resp := some (BitVec.ofInt 32 z) }

/-- The draws a result takes are counted, so that each is fresh (93 I2, I3; log 3). -/
def State.countDraws (r : Result) (s : State) : State :=
  { s with draws := s.draws + r.drawCount }

/-- Answer a request with a result, the draw it may be included (60_exceptions.md R242). -/
def State.respond (r : Result) (s : State) : State :=
  (s.countDraws r).respondWord (r.settle s.draws)

/-- The host reads the response: a fault where there is none yet (70_reset_and_hazards.md R270). -/
def readResponse (s : State) : Host.Outcome Response Fault Refusal :=
  match s.resp with
  | some r => .next r
  | none => .fault .noResponse

/-! ### Host variables -/

/-- The value a host variable holds, if it holds one (30_encoding.md R83). -/
def readVar (v : Nat) : List (Nat × HostValue) → Option HostValue
  | [] => none
  | (u, x) :: rest => if u = v then some x else readVar v rest

/-- Write a host variable, keeping the list sorted and without repeats. -/
def writeVar (v : Nat) (x : HostValue) : List (Nat × HostValue) → List (Nat × HostValue)
  | [] => [(v, x)]
  | (u, y) :: rest =>
    if v < u then (v, x) :: (u, y) :: rest
    else if v = u then (v, x) :: rest
    else (u, y) :: writeVar v x rest

/-- Every variable of the list is above `v`, and the list is strictly rising. -/
def risingAbove (v : Nat) : List (Nat × HostValue) → Bool
  | [] => true
  | (u, _) :: rest => decide (v < u) && risingAbove u rest

/-- The canonical form of the host variables: strictly rising, so that equal contents are equal lists. -/
def varsWf : List (Nat × HostValue) → Bool
  | [] => true
  | (u, _) :: rest => risingAbove u rest

/-- The kind of a value (30_encoding.md R83). -/
def HostValue.kind : HostValue → Kind
  | .word _ => .word
  | .int _ => .int

/-- An integer of a host variable is one of `INT_W` bits (20_memory.md R54). -/
def HostValue.inRange : HostValue → Bool
  | .word _ => true
  | .int n => intFits n

end Sys2Proof.Machine
end

