-- ==== Sys2Proof/Machine/Operands.lean ====
section
/-! DEFINITION. Operand words: their classes and values (30_encoding.md R72), their raw order (R76), and the reconstructed mantissa (R71).
Each operand of the ten operations is a whole word or an integer; there are no immediates and no addressing modes (R71). The block has no
flags (10_state.md R23), so no flag is computed anywhere. -/

namespace Sys2Proof.Machine

/-- The four classes of a word (30_encoding.md R72). -/
inductive WordClass where
  | zero
  | exp0
  | normal
  | inf
  deriving DecidableEq, Repr

/-- The class of a word (30_encoding.md R72). -/
def classOf (x : Word) : WordClass :=
  if E x = 0 then (if M x = 0 then .zero else .exp0)
  else if E x = Config.expInf then .inf
  else .normal

/-- An infinity-tagged word: `E = 31`, whatever its mantissa (00_scope.md R13). -/
def isInf (x : Word) : Bool := E x == Config.expInf

/-- The 15 bits below the sign, as the unsigned integer the raw comparisons use (30_encoding.md R76). -/
def rawMagnitude (x : Word) : Nat := (x &&& 0x7FFF).toNat

/-- Minus one or plus one. -/
def signOf (x : Word) : Int := if S x then -1 else 1

/-- The value of a word (30_encoding.md R72): the zeros and the infinities carry their sign; a finite value is a whole number of units of 2^−25
(log 17). -/
inductive WordValue where
  /-- +0 where `neg` is false, −0 where it is true -/
  | zero (neg : Bool)
  /-- a value that is no zero, times 2^25 -/
  | finite (units : Int)
  /-- +∞ where `neg` is false, −∞ where it is true -/
  | inf (neg : Bool)
  deriving DecidableEq, Repr

/-- The value column of R72, class by class. EXP0 and NORMAL words have one formula, (−1)^S × (1 + M/1024) × 2^(E−15), which is (1024 + M) × 2^E
units of 2^−25. -/
def valueOf (x : Word) : WordValue :=
  match classOf x with
  | .zero => .zero (S x)
  | .exp0 => .finite (signOf x * ((1024 + M x) * 2 ^ E x : Nat))
  | .normal => .finite (signOf x * ((1024 + M x) * 2 ^ E x : Nat))
  | .inf => .inf (S x)

/-- The finite number a value is, in units of 2^−25: both zeros are the number 0, and an infinity is no number. -/
def WordValue.units : WordValue → Option Int
  | .zero _ => some 0
  | .finite units => some units
  | .inf _ => none

/-- The number a word stands for times 2^25, where it stands for one: what is left of its value when the sign of a zero is set aside. -/
def scaledValue (x : Word) : Option Int := (valueOf x).units

/-- The reconstructed mantissa `0x400 | M(x)`, its implicit bit set whatever the exponent (30_encoding.md R71, 43_adder.md R172). -/
def reconstructed (x : Word) : Nat := Config.implicit ||| M x

end Sys2Proof.Machine
end

