-- ==== Sys2Proof/Machine/BitCodec.lean ====
section
/-! DEFINITION. `fp16_bitcodec`: negate and abs (40_bitcodec.md R104, R105; 10_state.md R27). -/

namespace Sys2Proof.Machine

/-- `negate(x)`: flip the sign bit, keep the other 15 (40_bitcodec.md R104). -/
def negate (x : Word) : Word := x ^^^ Config.signMask

/-- `abs(x)`: clear the sign bit, keep the other 15 (40_bitcodec.md R105). -/
def absWord (x : Word) : Word := x &&& 0x7FFF

/-- The block's ports: `sel` 0 is negate, 1 is abs (10_state.md R27). -/
def fp16Bitcodec (x : Word) (sel : Bool) : Word := if sel then absWord x else negate x

/-- NEG (40_bitcodec.md R104). -/
def execNegate (a : Word) (s : State) : Host.Outcome State Fault Refusal :=
  .next (s.respondWord (fp16Bitcodec a false))

/-- ABS (40_bitcodec.md R105). -/
def execAbs (a : Word) (s : State) : Host.Outcome State Fault Refusal :=
  .next (s.respondWord (fp16Bitcodec a true))

end Sys2Proof.Machine
end

