-- ==== Sys2Proof/Machine/Adder.lean ====
section
/-! DEFINITION. `fp16_adder`: add and subtract, one definition per step (43_adder.md R170 to R177; 10_state.md R30). -/

namespace Sys2Proof.Machine

/-- Two operands after alignment: the larger exponent `EL` and both mantissas (43_adder.md R172). -/
structure Aligned where
  EL : Nat
  ma : Nat
  mb : Nat
  deriving DecidableEq, Repr

/-- Reconstruct both mantissas and shift the one of the smaller exponent right, truncating (43_adder.md R172). -/
def alignOperands (a b : Word) : Aligned :=
  if E a ≥ E b then ⟨E a, reconstructed a, reconstructed b >>> (E a - E b)⟩
  else ⟨E b, reconstructed a >>> (E b - E a), reconstructed b⟩

/-- Combine the aligned mantissas by sign: `(C, s)` (43_adder.md R173). -/
def combineBySign (sa sb : Bool) (ma mb : Nat) : Nat × Bool :=
  if sa = sb then (ma + mb, sa)
  else if ma > mb then (ma - mb, sa)
  else if mb > ma then (mb - ma, sb)
  else (0, false)

/-- Zero collapse, renormalisation and the range of the exponent (43_adder.md R174, R175). The range test is the whole domain of pack, as
40_bitcodec.md R101 asks; an exponent above 31 never arises (R175), so the draw is taken for a negative exponent only. -/
def renormalise (s : Bool) (EL C : Nat) : Result :=
  if hC : C = 0 then .value 0x0000
  else
    have hpos : 0 < C := Nat.pos_of_ne_zero hC
    let r := align10 C hpos
    let e : Int := (EL : Int) + r.1 - 10
    if he : 0 ≤ e ∧ e ≤ 31 then
      .value (pack s e.toNat r.2 (by omega) (align10_mantissa_le C hpos))
    else .unspecified .addUnderflow

/-- `add(a, b)`: infinity pass-through, `a` first, then align, combine and renormalise (43_adder.md R170, R171). -/
def add (a b : Word) : Result :=
  if E a = Config.expInf then .value a
  else if E b = Config.expInf then .value b
  else
    let p := alignOperands a b
    let q := combineBySign (S a) (S b) p.ma p.mb
    renormalise q.2 p.EL q.1

/-- `subtract(a, b) = add(a, negate(b))` (43_adder.md R177). -/
def subtract (a b : Word) : Result := add a (negate b)

/-- The block's ports: `sub` 0 is add, 1 is subtract (10_state.md R30). -/
def fp16Adder (a b : Word) (sub : Bool) : Result := if sub then subtract a b else add a b

/-- ADD (43_adder.md R170). -/
def execAdd (a b : Word) (s : State) : Host.Outcome State Fault Refusal :=
  .next (s.respond (fp16Adder a b false))

/-- SUB (43_adder.md R177). -/
def execSubtract (a b : Word) (s : State) : Host.Outcome State Fault Refusal :=
  .next (s.respond (fp16Adder a b true))

/-! ### No draw where an exponent is at least 10 (43_adder.md R175) -/

theorem E_le (x : Word) : E x ≤ 31 := by
  have := (x.extractLsb' 10 5).isLt
  unfold E
  omega

theorem M_le (x : Word) : M x ≤ 1023 := by
  have := (x.extractLsb' 0 10).isLt
  unfold M
  omega

theorem reconstructed_lt (x : Word) : reconstructed x < 2048 :=
  Nat.or_lt_two_pow (n := 11) (by decide) (lt_of_le_of_lt (M_le x) (by decide))

theorem alignOperands_lt (a b : Word) :
    (alignOperands a b).ma < 2048 ∧ (alignOperands a b).mb < 2048 := by
  have ha := reconstructed_lt a
  have hb := reconstructed_lt b
  unfold alignOperands
  split
  · exact ⟨ha, lt_of_le_of_lt (Nat.shiftRight_le _ _) hb⟩
  · exact ⟨lt_of_le_of_lt (Nat.shiftRight_le _ _) ha, hb⟩

theorem alignOperands_EL (a b : Word) : (alignOperands a b).EL = max (E a) (E b) := by
  unfold alignOperands
  split <;> simp <;> omega

theorem combineBySign_lt (sa sb : Bool) (ma mb : Nat) (ha : ma < 2048) (hb : mb < 2048) :
    (combineBySign sa sb ma mb).1 < 4096 := by
  unfold combineBySign
  split
  · dsimp only; omega
  · split
    · dsimp only; omega
    · split <;> dsimp only <;> omega

theorem align10_digits_lt (C : Nat) (h : 0 < C) (hC : C < 4096) : (align10 C h).1 < 12 := by
  have : Nat.log2 C < 12 := (Nat.log2_lt (by omega)).mpr (by simpa using hC)
  simpa [align10, bitLength] using this

theorem renormalise_isValue (s : Bool) (EL C : Nat) (hC : C < 4096) (hlo : 10 ≤ EL) (hhi : EL ≤ 30) :
    (renormalise s EL C).isValue = true := by
  unfold renormalise
  split
  · rfl
  · next h =>
    have hd := align10_digits_lt C (Nat.pos_of_ne_zero h) hC
    dsimp only
    rw [dif_pos (by omega)]
    rfl

theorem add_isValue (a b : Word) (h : 10 ≤ E a) : (add a b).isValue = true := by
  have hab := alignOperands_lt a b
  have hEL := alignOperands_EL a b
  have ha := E_le a
  have hb := E_le b
  unfold add
  split
  · rfl
  · split
    · rfl
    · next h₁ h₂ =>
      simp only [Config.expInf] at h₁ h₂
      refine renormalise_isValue _ _ _ (combineBySign_lt _ _ _ _ hab.1 hab.2) ?_ ?_ <;> omega

theorem subtract_isValue (a b : Word) (h : 10 ≤ E a) : (subtract a b).isValue = true :=
  add_isValue a (negate b) h

end Sys2Proof.Machine
end

