-- ==== Sys2Proof/Machine/IntegerConversion.lean ====
section
/-! DEFINITION. `fp16_encoder` and `fp16_decoder`: from_int and to_int (41_integer_conversion.md R120, R123; 10_state.md R28, R29). -/

namespace Sys2Proof.Machine

/-- `from_int(n)`, its cases in the order of the pseudocode; the exponent is never negative (41_integer_conversion.md R120). -/
def fromInt (n : Int) : Result :=
  if hn : n = 0 then .value 0x0000
  else
    have hmag : 0 < n.natAbs := Int.natAbs_pos.mpr hn
    let r := align10 n.natAbs hmag
    if he : r.1 + Config.bias ≤ 31 then
      .value (pack (decide (n < 0)) (r.1 + Config.bias) r.2 he (align10_mantissa_le n.natAbs hmag))
    else .unspecified .fromIntOor

/-- `to_int(x)`: truncating, with no case for an infinity (41_integer_conversion.md R123, R124). -/
def toInt (x : Word) : Int :=
  let u : Int := (E x : Int) - Config.bias
  if u < 0 then 0
  else
    let scale : Nat := 2 ^ u.toNat
    signOf x * ((scale + ((scale * M x) >>> 10) : Nat) : Int)

/-- The encoder's port (10_state.md R28); decimal mode is `fp16EncoderDecimal` of DecimalMode.lean. -/
def fp16Encoder (n : Int) : Result := fromInt n

/-- The decoder's port (10_state.md R29). -/
def fp16Decoder (x : Word) : Int := toInt x

/-- FROM_INT (41_integer_conversion.md R120). -/
def execFromInt (n : Int) (s : State) : Host.Outcome State Fault Refusal :=
  .next (s.respond (fp16Encoder n))

/-- TO_INT (41_integer_conversion.md R123). -/
def execToInt (a : Word) (s : State) : Host.Outcome State Fault Refusal :=
  .next (s.respondInt (fp16Decoder a))

end Sys2Proof.Machine
end

