-- ==== Sys2Proof/Machine/Multiplier.lean ====
section
/-! DEFINITION. `fp16_multiplier`: multiply, one definition per step (44_multiplier.md R200 to R208; 10_state.md R31). Every function that
rounds takes the reading of the rounding step (R207) as its first argument. -/

namespace Sys2Proof.Machine

/-- The product significand `U`, the cross term truncated (44_multiplier.md R205). -/
def productSignificand (ma mb : Nat) : Nat := 1024 + ((ma * mb) >>> 10) + ma + mb

/-- The round bit under each reading; `shifted` says that the renormalising shift occurred (44_multiplier.md R207). -/
def roundBit (rd : MulRoundReading) (shifted : Bool) (U : Nat) : Bool :=
  match rd with
  | .onShift => shifted && U.testBit 0
  | .always => U.testBit 0

/-- The rounding step on `(ce, m)`: increment unless `ce` is one below the infinity exponent; a carry out of the field clears the mantissa
and increments the exponent (44_multiplier.md R207). -/
def roundStep (rbit : Bool) (ce : Int) (m : Nat) : Int × Nat :=
  if rbit = true ∧ ce ≠ 30 then
    (if m + 1 = 1024 then (ce + 1, 0) else (ce, m + 1))
  else (ce, m)

theorem roundStep_mantissa_le (rbit : Bool) (ce : Int) (m : Nat) (hm : m ≤ 1023) : (roundStep rbit ce m).2 ≤ 1023 := by
  unfold roundStep
  split
  · split <;> simp_all
    omega
  · exact hm

/-- The last step: saturate to the canonical infinity, or pack (44_multiplier.md R208). -/
def saturate (s : Bool) (ce : Int) (m : Nat) (hm : m ≤ 1023) : Word :=
  if h : ce ≥ 31 ∨ ce < 0 then signedInf s
  else pack s ce.toNat m (by omega) hm

/-- The significand path: renormalise, mask, round, saturate (44_multiplier.md R205 to R208). -/
def multiplySignificand (rd : MulRoundReading) (s : Bool) (ce : Int) (ma mb : Nat) : Word :=
  let U := productSignificand ma mb
  let shifted := U.testBit 11
  let V := if shifted then U >>> 1 else U
  let ce₁ := if shifted then ce + 1 else ce
  let r := roundStep (roundBit rd shifted U) ce₁ (mask10 V)
  saturate s r.1 r.2 (roundStep_mantissa_le _ _ _ (mask10_le V))

/-- `multiply(a, b)`, its cases in the order of the pseudocode: zero, infinity, flush to zero, significand (44_multiplier.md R200 to R204). -/
def multiply (rd : MulRoundReading) (a b : Word) : Word :=
  let s := S a ^^ S b
  if rawMagnitude a = 0 ∨ rawMagnitude b = 0 then signedZero s
  else if E a = Config.expInf ∨ E b = Config.expInf then signedInf s
  else
    let ce : Int := (E a : Int) + E b - Config.bias
    if ce ≤ 0 then 0x0000
    else multiplySignificand rd s ce (M a) (M b)

/-- The block's ports (10_state.md R31). -/
def fp16Multiplier (rd : MulRoundReading) (a b : Word) : Word := multiply rd a b

/-- MUL (44_multiplier.md R200). -/
def execMultiply (a b : Word) (s : State) : Host.Outcome State Fault Refusal :=
  .next (s.respondWord (fp16Multiplier s.mulRound a b))

end Sys2Proof.Machine
end

