-- ==== Sys2Proof/Machine/Reciprocal.lean ====
section
/-! DEFINITION. `fp16_reciprocal_nr`: the Newton-Raphson reciprocal (42_reciprocal_nr.md R150 to R152; 10_state.md R32). -/

namespace Sys2Proof.Machine

/-- `subtract(TWO, x)`, which never meets a draw, since the exponent of TWO is 16 (42_reciprocal_nr.md R154). -/
def subtractFromTwo (x : Word) : Word :=
  (subtract Config.two x).word (subtract_isValue Config.two x (by decide))

/-- One Newton-Raphson step: `multiply(est, subtract(TWO, multiply(mag, est)))` (42_reciprocal_nr.md R152). -/
def nrStep (rd : MulRoundReading) (mag est : Word) : Word :=
  multiply rd est (subtractFromTwo (multiply rd mag est))

/-- The estimate after the seed and exactly two steps (42_reciprocal_nr.md R151, R156); the seed is a raw subtraction. -/
def estimate (rd : MulRoundReading) (mag : Word) : Word :=
  nrStep rd mag (nrStep rd mag (Config.recipThreshold - mag))

/-- `reciprocal(x)`: the raw threshold test, then the estimate with the sign of `x` re-attached (42_reciprocal_nr.md R151). -/
def reciprocal (rd : MulRoundReading) (x : Word) : Word :=
  let mag := absWord x
  if Config.recipThreshold.toNat ≤ mag.toNat then 0x0000
  else (estimate rd mag &&& 0x7FFF) ||| signedZero (S x)

/-- The block's port (10_state.md R32). -/
def fp16ReciprocalNr (rd : MulRoundReading) (x : Word) : Word := reciprocal rd x

/-- RECIP (42_reciprocal_nr.md R151). -/
def execReciprocal (a : Word) (s : State) : Host.Outcome State Fault Refusal :=
  .next (s.respondWord (fp16ReciprocalNr s.mulRound a))

end Sys2Proof.Machine
end

