-- ==== Sys2Proof/Machine/DecimalMode.lean ====
section
/-! DEFINITION. The encoder's decimal mode: from_int_with_decimal (41_integer_conversion.md R126; 10_state.md R28). -/

namespace Sys2Proof.Machine

/-- `repeat k times: v <- multiply(v, r)` (41_integer_conversion.md R126). -/
def multiplyTimes (rd : MulRoundReading) (r : Word) : Nat → Word → Word
  | 0, v => v
  | k + 1, v => multiplyTimes rd r k (multiply rd v r)

/-- The multiplications of decimal mode on the word from_int gave: `k` times by `reciprocal(TEN)` (41_integer_conversion.md R126). -/
def scaleDown (rd : MulRoundReading) (k : Nat) (v : Word) : Word :=
  multiplyTimes rd (reciprocal rd Config.ten) k v

/-- The encoder's decimal-mode port where `n` draws were taken before: where from_int yields a draw, the multiplications apply to the
drawn word (41_integer_conversion.md R127; 10_state.md R28). -/
def fp16EncoderDecimal (rd : MulRoundReading) (draws : Nat) (n : Int) (k : Nat) : Word :=
  scaleDown rd k ((fromInt n).settle draws)

/-- FROM_INT_DEC (41_integer_conversion.md R126). -/
def execFromIntWithDecimal (n : Int) (k : Nat) (s : State) : Host.Outcome State Fault Refusal :=
  .next ((s.countDraws (fromInt n)).respondWord (fp16EncoderDecimal s.mulRound s.draws n k))

end Sys2Proof.Machine
end

