-- ==== Sys2Proof/Machine/Divider.lean ====
section
/-! DEFINITION. `fp16_divider`: divide (45_divider.md R230; 10_state.md R33). -/

namespace Sys2Proof.Machine

/-- `divide(a, b) = multiply(a, reciprocal(b))` (45_divider.md R230). -/
def divide (rd : MulRoundReading) (a b : Word) : Word := multiply rd a (reciprocal rd b)

/-- The block's ports: a reciprocal function followed by a multiply function (10_state.md R33). -/
def fp16Divider (rd : MulRoundReading) (a b : Word) : Word := divide rd a b

/-- DIV (45_divider.md R230). -/
def execDivide (a b : Word) (s : State) : Host.Outcome State Fault Refusal :=
  .next (s.respondWord (fp16Divider s.mulRound a b))

end Sys2Proof.Machine
end

