-- ==== Sys2Proof/Machine/Dispatch.lean ====
section
/-! DEFINITION. One arm per instruction (30_encoding.md R79). -/

namespace Sys2Proof.Machine

def exec (i : Instr) (s : State) : Host.Outcome State Fault Refusal :=
  match i with
  | .fromInt n => Sys2Proof.Machine.execFromInt n s
  | .toInt a => Sys2Proof.Machine.execToInt a s
  | .fromIntWithDecimal n k => Sys2Proof.Machine.execFromIntWithDecimal n k s
  | .negate a => Sys2Proof.Machine.execNegate a s
  | .abs a => Sys2Proof.Machine.execAbs a s
  | .reciprocal a => Sys2Proof.Machine.execReciprocal a s
  | .add a b => Sys2Proof.Machine.execAdd a b s
  | .subtract a b => Sys2Proof.Machine.execSubtract a b s
  | .multiply a b => Sys2Proof.Machine.execMultiply a b s
  | .divide a b => Sys2Proof.Machine.execDivide a b s

end Sys2Proof.Machine
end

