-- ==== Sys2Proof/Machine/Request.lean ====
section
/-! DEFINITION. `fp16_core`, the request wrapper (10_state.md R34). -/

namespace Sys2Proof.Machine

/-- One request, one atomic step: decode it, then run it or refuse it (10_state.md R34, 30_encoding.md R80, R82). -/
def fp16Core (req : Request) (s : State) : Host.Outcome State Fault Refusal :=
  match decode req with
  | .ok i => exec i s
  | .error why => .refused (.reservedEncoding why)

end Sys2Proof.Machine
end

