-- ==== Sys2Proof/Machine/HostProgram.lean ====
section
/-! DEFINITION. What the host does with a program: form a statement's request, issue it, keep the response in a host variable; expand
nested calls; check operand kinds at assembly (30_encoding.md R83, 70_reset_and_hazards.md R275). -/

namespace Sys2Proof.Machine

/-! ### Operands of a statement -/

/-- What a mnemonic expects at an operand position (30_encoding.md R83). -/
inductive Param where
  /-- a word literal, or a variable that holds a word -/
  | word
  /-- an integer literal, or a variable that holds an integer -/
  | int
  /-- the scaling operand: a literal only -/
  | scaling
  deriving DecidableEq, Repr

/-- The operand positions of a mnemonic, by its format (30_encoding.md R78, R83). -/
def paramsOf (op : Mnemonic) : List Param :=
  match op.format with
  | .I => [.int]
  | .D => [.int, .scaling]
  | .U => [.word]
  | .B => [.word, .word]

/-- The kind of value a parameter takes (30_encoding.md R83). -/
def Param.kind : Param → Kind
  | .word => .word
  | .int => .int
  | .scaling => .int

/-- The kind of value a statement writes: an integer for to_int, else a word (30_encoding.md R83). -/
def resultKind (op : Mnemonic) : Kind := if op = .toInt then .int else .word

/-- The range of an integer literal: `INT_W` bits, and 0 to 65535 for the scaling operand (30_encoding.md R83; log 9). -/
def literalFits (p : Param) (n : Int) : Bool :=
  match p with
  | .scaling => decide (0 ≤ n) && countFits n.toNat
  | _ => intFits n

/-- The value of one operand. A variable that holds no value faults; a value of the wrong kind is refused (30_encoding.md R83; log 8). -/
def evalOperand (vars : List (Nat × HostValue)) (p : Param) : Operand → Host.Outcome HostValue Fault Refusal
  | .word w => if p = .word then .next (.word w) else .refused .operandKind
  | .int n =>
    if p = .word then .refused .operandKind
    else if literalFits p n then .next (.int n) else .refused .literalRange
  | .var v =>
    if p = .scaling then .refused .operandKind
    else
      match readVar v vars with
      | none => .fault (.unwrittenVariable v)
      | some x => if x.kind = p.kind then .next x else .refused .operandKind

/-- The values of a statement's operands, left to right. -/
def evalOperands (vars : List (Nat × HostValue)) : List Param → List Operand → Host.Outcome (List HostValue) Fault Refusal
  | [], [] => .next []
  | p :: ps, o :: os =>
    match evalOperand vars p o with
    | .next x =>
      match evalOperands vars ps os with
      | .next xs => .next (x :: xs)
      | .fault f => .fault f
      | .refused r => .refused r
    | .fault f => .fault f
    | .refused r => .refused r
  | _, _ => .refused .operandKind

/-- The instruction a mnemonic and its operand values stand for (30_encoding.md R79, R83). -/
def instrOf (op : Mnemonic) (xs : List HostValue) : Option Instr :=
  match op, xs with
  | .fromInt, [.int n] => some (.fromInt n)
  | .toInt, [.word a] => some (.toInt a)
  | .fromIntWithDecimal, [.int n, .int k] => some (.fromIntWithDecimal n k.toNat)
  | .negate, [.word a] => some (.negate a)
  | .abs, [.word a] => some (.abs a)
  | .reciprocal, [.word a] => some (.reciprocal a)
  | .add, [.word a, .word b] => some (.add a b)
  | .subtract, [.word a, .word b] => some (.subtract a b)
  | .multiply, [.word a, .word b] => some (.multiply a b)
  | .divide, [.word a, .word b] => some (.divide a b)
  | _, _ => none

/-- The request word of a statement (30_encoding.md R83: one statement is one request). -/
def requestOf (vars : List (Nat × HostValue)) (op : Mnemonic) (args : List Operand) : Host.Outcome Request Fault Refusal :=
  match evalOperands vars (paramsOf op) args with
  | .next xs =>
    match instrOf op xs with
    | some i => .next (encode i)
    | none => .refused .operandKind
  | .fault f => .fault f
  | .refused r => .refused r

/-! ### One statement -/

/-- What `%dst` receives: `sext_32(resp)` for to_int, else the word `resp[15:0]` (30_encoding.md R81, R83). -/
def valueOfResponse (op : Mnemonic) (resp : Response) : HostValue :=
  if op = .toInt then .int resp.toInt else .word (resp.setWidth 16)

/-- Read the response and keep it in `%dst` (30_encoding.md R83). -/
def storeResponse (dst : Nat) (op : Mnemonic) (s : State) : Host.Outcome State Fault Refusal :=
  match readResponse s with
  | .next r => .next { s with vars := writeVar dst (valueOfResponse op r) s.vars }
  | .fault f => .fault f
  | .refused r => .refused r

/-- Issue the next request of the host program (10_state.md R22): form it, hand it to `fp16_core`, keep the response. A raw request writes
no variable (95_test_vectors.md P6). With no statement left no request is presented (log 4). -/
def issueNext (s : State) : Host.Outcome State Fault Refusal :=
  match s.program with
  | [] => .fault .noRequest
  | .raw req :: rest => fp16Core req { s with program := rest }
  | .call dst op args :: rest =>
    match requestOf s.vars op args with
    | .next req =>
      match fp16Core req { s with program := rest } with
      | .next t => storeResponse dst op t
      | .fault f => .fault f
      | .refused r => .refused r
    | .fault f => .fault f
    | .refused r => .refused r

/-- Put one raw request at the head of the host program (log 6). -/
def State.present (req : Request) (s : State) : State :=
  { s with program := .raw req :: s.program }

/-! ### Assembly -/

/-- The statements of a call expression, the operand that names its result, and the next fresh variable: innermost call first, left
argument before right, each call into a fresh variable (30_encoding.md R83). -/
def expand : Expr → Nat → List Stmt × Operand × Nat
  | .arg o, fresh => ([], o, fresh)
  | .call1 op e, fresh =>
    let r := expand e fresh
    (r.1 ++ [.call r.2.2 op [r.2.1]], .var r.2.2, r.2.2 + 1)
  | .call2 op e₁ e₂, fresh =>
    let r₁ := expand e₁ fresh
    let r₂ := expand e₂ r₁.2.2
    (r₁.1 ++ r₂.1 ++ [.call r₂.2.2 op [r₁.2.1, r₂.2.1]], .var r₂.2.2, r₂.2.2 + 1)

/-- The statements of `%dst = e`: the outermost call writes `dst` itself (log 13). None where `e` is no call. -/
def expandInto (dst : Nat) (e : Expr) (fresh : Nat) : Option (List Stmt × Nat) :=
  match e with
  | .arg _ => none
  | .call1 op e =>
    let r := expand e fresh
    some (r.1 ++ [.call dst op [r.2.1]], r.2.2)
  | .call2 op e₁ e₂ =>
    let r₁ := expand e₁ fresh
    let r₂ := expand e₂ r₁.2.2
    some (r₁.1 ++ r₂.1 ++ [.call dst op [r₁.2.1, r₂.2.1]], r₂.2.2)

/-- One above the variable of an operand. -/
def Operand.above : Operand → Nat
  | .var v => v + 1
  | _ => 0

/-- One above every variable of an expression. -/
def Expr.above : Expr → Nat
  | .arg o => o.above
  | .call1 _ e => e.above
  | .call2 _ e₁ e₂ => max e₁.above e₂.above

/-- One above every variable of a line. -/
def SourceLine.above : SourceLine → Nat
  | .stmt (.call dst _ args) => args.foldl (fun n o => max n o.above) (dst + 1)
  | .stmt (.raw _) => 0
  | .assign dst e => max (dst + 1) e.above
  | .expr e => e.above

/-- One above every variable of a program: the first fresh variable (log 13). -/
def firstFresh (lines : List SourceLine) : Nat := lines.foldl (fun n l => max n l.above) 0

/-- The statements of a program's lines (30_encoding.md R83). None where a line assigns what is no call. -/
def expandLines : List SourceLine → Nat → Option (List Stmt)
  | [], _ => some []
  | .stmt st :: rest, fresh => (expandLines rest fresh).map (st :: ·)
  | .assign dst e :: rest, fresh =>
    match expandInto dst e fresh with
    | none => none
    | some r => (expandLines rest r.2).map (r.1 ++ ·)
  | .expr e :: rest, fresh =>
    let r := expand e fresh
    (expandLines rest r.2.2).map (r.1 ++ ·)

/-- Whether an operand has the kind and the range its position asks for. A variable that no earlier statement wrote has no kind yet: it
passes, and the program faults there when it runs (30_encoding.md R83; 95_test_vectors.md P7). -/
def checkOperand (kinds : List (Nat × Kind)) (p : Param) : Operand → Option Refusal
  | .word _ => if p = .word then none else some .operandKind
  | .int n =>
    if p = .word then some .operandKind
    else if literalFits p n then none else some .literalRange
  | .var v =>
    if p = .scaling then some .operandKind
    else
      match kinds.lookup v with
      | none => none
      | some k => if k = p.kind then none else some .operandKind

/-- The operands of one statement, left to right. -/
def checkOperands (kinds : List (Nat × Kind)) : List Param → List Operand → Option Refusal
  | [], [] => none
  | p :: ps, o :: os => (checkOperand kinds p o).or (checkOperands kinds ps os)
  | _, _ => some .operandKind

/-- The statements of a program, in order, each with the kinds of the variables written before it (30_encoding.md R83). -/
def checkStmts (kinds : List (Nat × Kind)) : List Stmt → Option Refusal
  | [] => none
  | .raw _ :: rest => checkStmts kinds rest
  | .call dst op args :: rest =>
    (checkOperands kinds (paramsOf op) args).or (checkStmts ((dst, resultKind op) :: kinds) rest)

/-- The kinds of the host variables that hold a value. -/
def kindsOf (vars : List (Nat × HostValue)) : List (Nat × Kind) := vars.map (fun p => (p.1, p.2.kind))

/-- Assemble a program: expand its calls, then check its operands (30_encoding.md R83). -/
def assemble (lines : List SourceLine) : Host.Outcome (List Stmt) Fault Refusal :=
  match expandLines lines (firstFresh lines) with
  | none => .refused .operandKind
  | some stmts =>
    match checkStmts [] stmts with
    | none => .next stmts
    | some r => .refused r

/-- Assemble a program and load it; it starts with no host variable written (95_test_vectors.md part 3; log 6). -/
def State.load (lines : List SourceLine) (s : State) : Host.Outcome State Fault Refusal :=
  match assemble lines with
  | .next stmts => .next { s with program := stmts, vars := [] }
  | .fault f => .fault f
  | .refused r => .refused r

end Sys2Proof.Machine
end

