-- ==== Sys2Proof/Machine/Step.lean ====
section
/-! DEFINITION. One step of the machine: the host issues its next request and the block answers it (10_state.md R34, 70_reset_and_hazards.md
R273). -/

namespace Sys2Proof.Machine

/-- One request is one atomic step (70_reset_and_hazards.md R273). -/
def step (s : State) : Host.Outcome State Fault Refusal := issueNext s

/-- The host presents the request word `w` of the opcode table next (log 6, log 11). -/
def State.withFetchWord (s : State) (nbits w : Nat) : State := s.present (tableRequest nbits w)

end Sys2Proof.Machine
end

