-- ==== Sys2Proof/Safety.lean ====
section
/-! DEFINITION. What a safe run is, in the terms the statements use. -/

namespace Sys2Proof.Machine

/-- A request or a step completes: its outcome is a next state. -/
def completes (o : Host.Outcome State Fault Refusal) : Bool :=
  match o with
  | .next _ => true
  | .fault _ => false
  | .refused _ => false

/-- `k` steps from `s`, stopping at the first fault or refusal. -/
def runSteps : Nat → State → Host.Outcome State Fault Refusal
  | 0, s => .next s
  | k + 1, s =>
    match step s with
    | .next t => runSteps k t
    | .fault f => .fault f
    | .refused r => .refused r

/-- The run of a host program: one step a statement, ending after the response to its last request (70_reset_and_hazards.md R275). -/
def runProgram (s : State) : Host.Outcome State Fault Refusal := runSteps s.program.length s

/-- The run is marked refused (30_encoding.md R80, 60_exceptions.md R242; log 7). -/
def markedRefused (o : Host.Outcome State Fault Refusal) : Bool :=
  match o with
  | .refused _ => true
  | .next _ => false
  | .fault _ => false

/-- The host's side of a state is in order: its variables are in canonical form and hold integers of `INT_W` bits only (20_memory.md R54,
30_encoding.md R83). -/
def hostOk (s : State) : Bool := varsWf s.vars && s.vars.all (fun p => p.2.inRange)

/-- What is left of the host program passes the assembler's check for the variables written so far (30_encoding.md R83). -/
def wellKinded (s : State) : Bool := (checkStmts (kindsOf s.vars) s.program).isNone

/-! ### A word as a number, for statements that do not go through the model's own field functions (30_encoding.md R70) -/

/-- The exponent field of a word, as a quotient and a remainder. -/
def expOf (x : Word) : Nat := x.toNat / 1024 % 32

/-- The mantissa field of a word, as a remainder. -/
def manOf (x : Word) : Nat := x.toNat % 1024

/-- The sign of a word: it is 0x8000 or above. -/
def isNeg (x : Word) : Bool := decide (32768 ≤ x.toNat)

/-- The number a word with these fields is. -/
def wordNat (neg : Bool) (e m : Nat) : Nat := neg.toNat * 32768 + e * 1024 + m

/-- The signed mantissa of a word aligned to the exponent `EL`, truncated (43_adder.md R172). -/
def signedAligned (EL : Nat) (x : Word) : Int :=
  (if isNeg x then -1 else 1) * (((1024 + manOf x) / 2 ^ (EL - expOf x) : Nat) : Int)

/-- The signed sum of two words' mantissas, both aligned to the larger exponent (43_adder.md R172, R173). -/
def alignedSum (a b : Word) : Int :=
  signedAligned (max (expOf a) (expOf b)) a + signedAligned (max (expOf a) (expOf b)) b

/-- The aligned sum is not zero and its renormalised exponent `EL + d − 10`, with `d` the place of its leading 1, is negative (43_adder.md R174, R175).
No infinity operand meets this, since `EL` is then 31. -/
def sumUnderflows (a b : Word) : Bool :=
  decide (alignedSum a b ≠ 0 ∧ max (expOf a) (expOf b) + Nat.log2 (alignedSum a b).natAbs < 10)

/-- The host programs that hold no raw request. -/
def noRaw (program : List Stmt) : Bool :=
  program.all (fun st => match st with | .call _ _ _ => true | .raw _ => false)

/-- How many calls an expression holds, and so how many statements it expands to. -/
def callCount : Expr → Nat
  | .arg _ => 0
  | .call1 _ e => callCount e + 1
  | .call2 _ e₁ e₂ => callCount e₁ + callCount e₂ + 1

/-- The variable a statement writes, if it writes one. -/
def destOf : Stmt → Option Nat
  | .call dst _ _ => some dst
  | .raw _ => none

/-! ### What a call expression means, without expanding it (30_encoding.md R83) -/

/-- The operand that names the result of an expression whose first fresh variable is `fresh`: the literal or variable it is, or the variable of its
outermost call, which is the last of its calls to run. -/
def resultOperand (fresh : Nat) : Expr → Operand
  | .arg o => o
  | .call1 _ e => .var (fresh + callCount e)
  | .call2 _ e₁ e₂ => .var (fresh + callCount e₁ + callCount e₂)

/-- The calls of an expression as statements in the order R83 gives: innermost first, left argument before right, the j-th into variable
`fresh + j`, each operand naming the result of the argument that stands there. -/
def callsInOrder (fresh : Nat) : Expr → List Stmt
  | .arg _ => []
  | .call1 op e => callsInOrder fresh e ++ [.call (fresh + callCount e) op [resultOperand fresh e]]
  | .call2 op e₁ e₂ =>
    callsInOrder fresh e₁ ++ callsInOrder (fresh + callCount e₁) e₂ ++
      [.call (fresh + callCount e₁ + callCount e₂) op [resultOperand fresh e₁, resultOperand (fresh + callCount e₁) e₂]]

/-- The variables that stand in an expression. -/
def varsIn : Expr → List Nat
  | .arg (.var v) => [v]
  | .arg _ => []
  | .call1 _ e => varsIn e
  | .call2 _ e₁ e₂ => varsIn e₁ ++ varsIn e₂

/-- The value an operand has in a state, if it has one. -/
def operandValue (s : State) : Operand → Option HostValue
  | .word w => some (.word w)
  | .int n => some (.int n)
  | .var v => readVar v s.vars

/-- One call on values: what the response gives, and the state after it. -/
def callValue (op : Mnemonic) (xs : List HostValue) (s : State) : Option (HostValue × State) :=
  match instrOf op xs with
  | none => none
  | some i =>
    match exec i s with
    | .next t => t.resp.map (fun r => (valueOfResponse op r, t))
    | .fault _ => none
    | .refused _ => none

/-- The value of a call expression as nested function calls, with no statement and no fresh variable: the left argument is evaluated before the
right, the arguments before the call. -/
def evalExpr : Expr → State → Option (HostValue × State)
  | .arg o, s => (operandValue s o).map (fun x => (x, s))
  | .call1 op e, s =>
    match evalExpr e s with
    | none => none
    | some (x, s₁) => callValue op [x] s₁
  | .call2 op e₁ e₂, s =>
    match evalExpr e₁ s with
    | none => none
    | some (x₁, s₁) =>
      match evalExpr e₂ s₁ with
      | none => none
      | some (x₂, s₂) => callValue op [x₁, x₂] s₂

end Sys2Proof.Machine
end

