-- ==== Sys2Proof/Certificates/Slice0/Obligations.lean ====
section
/-! DEFINITION. The statements for the provers. Each formalises the rules its docstring cites. -/

open Sys2Proof Sys2Proof.Machine

/-! ### Encoding (30_encoding.md part 2) -/

/-- Decoding the request word of a well-formed instruction gives the instruction back (30_encoding.md R77 to R79, R82). -/
def Obligations.DecodeInvertsEncode : Prop :=
  ∀ i : Instr, i.wellFormed = true → decode (encode i) = .ok i

/-- Every request word the decoder accepts is the request word of the instruction it reads, and that instruction is well-formed
(30_encoding.md R77 to R80). -/
def Obligations.EncodeInvertsDecode : Prop :=
  ∀ (req : Request) (i : Instr), decode req = .ok i → i.wellFormed = true ∧ encode i = req

/-- Request words of 95_test_vectors.md part 3 and 2.11, one of each mnemonic, decode to what they stand for. -/
def Obligations.SpecRequestWordsDecode : Prop :=
  decode 0x00000000FFFFFF88 = .ok (.fromInt (-120)) ∧
  decode 0x10000000D7300000 = .ok (.toInt 0xD730) ∧
  decode 0x20000001FFFFFFCE = .ok (.fromIntWithDecimal (-50) 1) ∧
  decode 0x3000000035560000 = .ok (.negate 0x3556) ∧
  decode 0x40000000B5560000 = .ok (.abs 0xB556) ∧
  decode 0x5000000049800000 = .ok (.reciprocal 0x4980) ∧
  decode 0x60000000D7804500 = .ok (.add 0xD780 0x4500) ∧
  decode 0x7000000040003C20 = .ok (.subtract 0x4000 0x3C20) ∧
  decode 0x8000000042003580 = .ok (.multiply 0x4200 0x3580) ∧
  decode 0x9000000058784980 = .ok (.divide 0x5878 0x4980)

/-- The decoder is the match-and-mask decoder of R82: a request decodes to an instruction of `op` exactly where it matches the row of `op`;
at most one row matches a request; and one that matches no row is refused. -/
def Obligations.DecoderIsMatchAndMask : Prop :=
  (∀ (req : Request) (op : Mnemonic),
    (req &&& (match op.format with
      | .I => 0xFFFFFFFF00000000 | .B => 0xFFFFFFFF00000000 | .D => 0xFFFF000000000000 | .U => 0xFFFFFFFF0000FFFF)
        = op.opcode.setWidth 64 <<< 60)
      ↔ ∃ i, decode req = .ok i ∧ i.mnemonic = op) ∧
  (∀ (req : Request) (op op' : Mnemonic), op.selects req = true → op'.selects req = true → op = op') ∧
  (∀ (req : Request) (s : State), (∀ op : Mnemonic, op.selects req = false) →
    ∃ why, fp16Core req s = .refused (.reservedEncoding why))

/-- R80: the three kinds of malformed request are refused, whatever the state, and no other request is; the refusal marks the run. -/
def Obligations.MalformedRequestsAreRefused : Prop :=
  ∀ (req : Request) (s : State),
    ((10 ≤ (req >>> 60).toNat ∨ req &&& 0x0FFF000000000000 ≠ 0 ∨
        ((req >>> 60).toNat ≠ 2 ∧ req &&& 0x0000FFFF00000000 ≠ 0) ∨
        ((req >>> 60).toNat ∈ [1, 3, 4, 5] ∧ req &&& 0x000000000000FFFF ≠ 0))
      ↔ ∃ why, fp16Core req s = .refused (.reservedEncoding why)) ∧
    ∀ why, fp16Core req s = .refused (.reservedEncoding why) → markedRefused (fp16Core req s) = true

/-! ### The step, reset and the host (10_state.md R22, R34; 30_encoding.md R83; 70_reset_and_hazards.md) -/

/-- A raw request at the head of the program runs as the instruction it decodes to, with the rest of the program left (10_state.md R34). -/
def Obligations.StepRunsRawRequest : Prop :=
  ∀ (s : State) (req : Request) (rest : List Stmt) (i : Instr),
    s.program = .raw req :: rest → decode req = .ok i → step s = exec i { s with program := rest }

/-- A request word presented to any state is the next one to run, and nothing else changes (log 6). -/
def Obligations.PresentedWordRunsNext : Prop :=
  ∀ (s : State) (w : Nat) (i : Instr),
    w < 2 ^ 64 → decode (BitVec.ofNat 64 w) = .ok i → step (s.withFetchWord 64 w) = exec i s

/-- A statement whose operands have values makes an instruction, well-formed where the host is in order; a well-formed one runs, and the
statement's variable receives the response: `sext_32(resp)` for to_int, else `resp[15:0]` (30_encoding.md R83). -/
def Obligations.StepRunsStatement : Prop :=
  ∀ (s : State) (dst : Nat) (op : Mnemonic) (args : List Operand) (rest : List Stmt) (xs : List HostValue),
    s.program = .call dst op args :: rest → evalOperands s.vars (paramsOf op) args = .next xs →
    ∃ i, instrOf op xs = some i ∧ i.mnemonic = op ∧ (hostOk s = true → i.wellFormed = true) ∧
      (i.wellFormed = true → ∃ t r, exec i { s with program := rest } = .next t ∧ t.resp = some r ∧
        step s = .next
          { t with vars := writeVar dst (if op = .toInt then .int r.toInt else .word (r.setWidth 16)) t.vars })

/-- A statement that reads a variable no statement wrote faults there, in either operand position, and sends no request (30_encoding.md R83;
93 I8). Operands are looked at from left to right, which is the model's choice (log 8): an unwritten first operand faults whatever stands second, and
a second one faults where the first is a word literal or a written variable that holds a word. -/
def Obligations.UnwrittenVariableFaults : Prop :=
  ∀ (s : State) (dst v : Nat) (op : Mnemonic) (rest : List Stmt), readVar v s.vars = none →
    (op.format = .U ∨ op.format = .I → s.program = .call dst op [.var v] :: rest →
      step s = .fault (.unwrittenVariable v)) ∧
    (∀ o, op.format = .B → s.program = .call dst op [.var v, o] :: rest → step s = .fault (.unwrittenVariable v)) ∧
    (∀ o a, o = .word a ∨ (∃ u, o = .var u ∧ readVar u s.vars = some (.word a)) →
      op.format = .B → s.program = .call dst op [o, .var v] :: rest → step s = .fault (.unwrittenVariable v)) ∧
    (∀ o, op.format = .D → s.program = .call dst op [.var v, o] :: rest → step s = .fault (.unwrittenVariable v))

/-- After reset there is no response to read, and reading one faults; the rounding reading is the default; no host variable is written; and
with no program a step presents no request (10_state.md R38, 70_reset_and_hazards.md R270; the last is the model's choice, log 4). -/
def Obligations.ResetHasNoResponse : Prop :=
  State.reset.resp = none ∧ readResponse State.reset = .fault .noResponse ∧ State.reset.mulRound = .onShift ∧
  State.reset.vars = [] ∧ step State.reset = .fault .noRequest

/-- The response is readable after every request that ran, and it is the one delivered (70_reset_and_hazards.md R272, 30_encoding.md R81). -/
def Obligations.ResponseReadableAfterRequest : Prop :=
  ∀ (i : Instr) (s : State), ∃ t r, exec i s = .next t ∧ readResponse t = .next r ∧ t.resp = some r

/-- A host variable read after it was written gives the value written, every other variable keeps its value, and the canonical form is kept. -/
def Obligations.StatementWritesOneVariable : Prop :=
  ∀ (s t : State) (dst : Nat) (op : Mnemonic) (args : List Operand) (rest : List Stmt),
    s.program = .call dst op args :: rest → step s = .next t →
    (∃ r, t.resp = some r ∧
      readVar dst t.vars = some (if op = .toInt then .int r.toInt else .word (r.setWidth 16))) ∧
    (∀ v, v ≠ dst → readVar v t.vars = readVar v s.vars) ∧ t.program = rest

/-! ### Frames and completion -/

/-- Every instruction answers a next state from every state: there is no exception, no privilege and no flag (60_exceptions.md R240, R247). -/
def Obligations.EveryInstructionCompletes : Prop :=
  ∀ (i : Instr) (s : State), ∃ t, exec i s = .next t

/-- The frame of every instruction: the configuration, the host's program and the host's variables are unchanged; only the response changes,
and the count of draws, by at most one (10_state.md R20, 20_memory.md R55). -/
def Obligations.InstructionsWriteOnlyTheResponse : Prop :=
  ∀ (i : Instr) (s t : State), exec i s = .next t →
    t.mulRound = s.mulRound ∧ t.program = s.program ∧ t.vars = s.vars ∧ (∃ r, t.resp = some r) ∧
    s.draws ≤ t.draws ∧ t.draws ≤ s.draws + 1

/-- A draw is taken exactly where the rules have one: from_int and from_int_with_decimal of |n| >= 131072, and add or subtract where the
aligned sum is not zero and its renormalised exponent is negative, which needs mixed signs and both exponents at most 9; to_int, negate, abs,
multiply, reciprocal and divide never take one (60_exceptions.md R242, 41_integer_conversion.md R121, R127, 43_adder.md R174, R175, R177,
42_reciprocal_nr.md R154). That draws are counted in the state is the model's choice (log 3). -/
def Obligations.DrawsOnlyWhereUnspecified : Prop :=
  (∀ (i : Instr) (s t : State), exec i s = .next t →
    (t.draws ≠ s.draws ↔
      match i with
      | .fromInt n => 131072 ≤ n.natAbs
      | .fromIntWithDecimal n _ => 131072 ≤ n.natAbs
      | .add a b => sumUnderflows a b = true
      | .subtract a b => sumUnderflows a (b ^^^ 0x8000#16) = true
      | .toInt _ => False
      | .negate _ => False
      | .abs _ => False
      | .reciprocal _ => False
      | .multiply _ _ => False
      | .divide _ _ => False)) ∧
  ∀ a b : Word, sumUnderflows a b = true → isNeg a ≠ isNeg b ∧ max (expOf a) (expOf b) ≤ 9

/-- R58: the response to a request depends on its own request word and the draws alone: two states that differ in everything but the
configuration and the draws to come give the same response; and where no draw is taken, the draws do not matter either. -/
def Obligations.ResponseDependsOnRequestOnly : Prop :=
  ∀ (req : Request) (s s' t : State), s.mulRound = s'.mulRound → fp16Core req s = .next t →
    s.draws = s'.draws ∨ t.draws = s.draws →
    ∃ t', fp16Core req s' = .next t' ∧ t'.resp = t.resp

/-! ### negate and abs (40_bitcodec.md) -/

/-- R104: NEG flips the sign bit of its operand and copies the other 15 bits; nothing else changes. -/
def Obligations.NegateFlipsSign : Prop :=
  ∀ (x : Word) (s : State),
    decode (0x3#4 ++ 0#12 ++ 0#16 ++ x ++ 0#16) = .ok (.negate x) ∧
    exec (.negate x) s = .next { s with resp := some ((x ^^^ 0x8000#16).setWidth 32) }

/-- R105: ABS clears the sign bit of its operand and copies the other 15 bits; nothing else changes. -/
def Obligations.AbsClearsSign : Prop :=
  ∀ (x : Word) (s : State),
    decode (0x4#4 ++ 0#12 ++ 0#16 ++ x ++ 0#16) = .ok (.abs x) ∧
    exec (.abs x) s = .next { s with resp := some ((x &&& 0x7FFF#16).setWidth 32) }

/-- R106: the four laws of negate and abs. -/
def Obligations.SignLaws : Prop :=
  ∀ x : Word, negate (negate x) = x ∧ absWord (absWord x) = absWord x ∧ isNeg (absWord x) = false ∧
    absWord (negate x) = absWord x

/-! ### from_int, to_int, from_int_with_decimal (41_integer_conversion.md) -/

/-- R120, R121: from_int of every integer of 32 bits: zero; sign, exponent and truncated mantissa from the position of the leading 1 up to
|n| = 131071; a free value beyond. -/
def Obligations.FromIntEncodesMagnitude : Prop :=
  ∀ (n : Int) (s : State), intFits n = true →
    decode (0x0#4 ++ 0#12 ++ 0#16 ++ BitVec.ofInt 32 n) = .ok (.fromInt n) ∧
    (n = 0 → exec (.fromInt n) s = .next { s with resp := some 0 }) ∧
    (∀ d : Nat, d ≤ 16 → 2 ^ d ≤ n.natAbs → n.natAbs < 2 ^ (d + 1) →
      exec (.fromInt n) s = .next
        { s with resp := some (BitVec.ofNat 32 (wordNat (decide (n < 0)) (d + 15) (n.natAbs * 1024 / 2 ^ d - 1024))) }) ∧
    (131072 ≤ n.natAbs →
      exec (.fromInt n) s =
        .next { s with resp := some ((Config.fromIntOor s.draws).setWidth 32), draws := s.draws + 1 })

/-- The properties of from_int (41_integer_conversion.md R122), with two readings that are the model's. For |n| <= 131071 the word is 0x0000 or has an
exponent of at least 15. For n ≠ 0, from_int(−n) is its negation; for n = 0 both are 0x0000 by R120 and R122's first property, against
the words of its second (log 18). For |n| <= 65535 its value is n exactly where |n| has at most 11 significant bits; from 65536 on the word is an
infinity and has no finite value (log 16). -/
def Obligations.FromIntProperties : Prop :=
  (∀ n : Int, n.natAbs ≤ 131071 → ∃ y, fromInt n = .value y ∧
    (y = 0 ∨ 15 ≤ expOf y) ∧
    (n ≠ 0 → fromInt (-n) = .value (negate y)) ∧
    (n.natAbs ≤ 65535 →
      (scaledValue y = some (n * 2 ^ 25) ↔ n.natAbs % 2 ^ (Nat.log2 n.natAbs - 10) = 0)) ∧
    (65536 ≤ n.natAbs → valueOf y = .inf (decide (n < 0)))) ∧
  fromInt 0 = .value 0x0000 ∧ fromInt (-0) = .value 0x0000

/-- R125: the round trip clears the bits of |n| below its 11 leading ones, and is exact where there are none. -/
def Obligations.RoundTripTruncates : Prop :=
  ∀ n : Int, n.natAbs ≤ 131071 → ∃ y, fromInt n = .value y ∧
    toInt y = n.sign * ((n.natAbs - n.natAbs % 2 ^ (Nat.log2 n.natAbs + 1 - 11) : Nat) : Int)

/-- R123, R124: to_int by exponent field: 0 below 15; the truncated magnitude from 15 to 30; 65536 + 64 M for an infinity. -/
def Obligations.ToIntByExponent : Prop :=
  ∀ (x : Word) (s : State),
    decode (0x1#4 ++ 0#12 ++ 0#16 ++ x ++ 0#16) = .ok (.toInt x) ∧
    exec (.toInt x) s = .next { s with resp := some (BitVec.ofInt 32
      ((if isNeg x then -1 else 1) *
        ((if expOf x < 15 then 0
          else if expOf x = 31 then 65536 + 64 * manOf x
          else (1024 + manOf x) * 2 ^ (expOf x - 15) / 1024 : Nat) : Int))) }

/-- For every word that is no infinity, to_int is the value of the word truncated toward zero (41_integer_conversion.md R124, 30_encoding.md
R72), and every result fits 32 bits (10_state.md R29). -/
def Obligations.ToIntTruncatesValue : Prop :=
  (∀ (x : Word) (v : Int), scaledValue x = some v → toInt x = v.tdiv (2 ^ 25)) ∧
  ∀ x : Word, -131008 ≤ toInt x ∧ toInt x ≤ 131008

/-- R126: the encoding of from_int_with_decimal; the reciprocal of ten under each reading; and decimal mode delivers the last of the words that
from_int and k multiplications by that reciprocal give, taking a draw where from_int does. -/
def Obligations.DecimalModeMultipliesKTimes : Prop :=
  reciprocal .onShift 0x4900 = 0x2E69 ∧ reciprocal .always 0x4900 = 0x2E66 ∧
  ∀ (n : Int) (k : Nat) (s : State) (v : Nat → Word),
    v 0 = (fromInt n).settle s.draws →
    (∀ j, j < k → v (j + 1) = multiply s.mulRound (v j) (reciprocal s.mulRound 0x4900)) →
    (intFits n = true → k < 2 ^ 16 →
      decode (0x2#4 ++ 0#12 ++ BitVec.ofNat 16 k ++ BitVec.ofInt 32 n) = .ok (.fromIntWithDecimal n k)) ∧
    exec (.fromIntWithDecimal n k) s =
      .next { s with resp := some ((v k).setWidth 32), draws := s.draws + (fromInt n).drawCount }

/-- The corner cases of decimal mode (41_integer_conversion.md R127): no scaling; zero stays zero; an infinity becomes canonical and stays; a
drawn word is multiplied like any other; 65504 is 0 from 9 steps on. -/
def Obligations.DecimalModeCorners : Prop :=
  ∀ (s : State) (n : Int) (k : Nat),
    exec (.fromIntWithDecimal n 0) s = exec (.fromInt n) s ∧
    exec (.fromIntWithDecimal 0 k) s = .next { s with resp := some 0 } ∧
    (65536 ≤ n.natAbs → n.natAbs ≤ 131071 →
      exec (.fromIntWithDecimal n (k + 1)) s =
        .next { s with resp := some (if n < 0 then 0xFC00 else 0x7C00) }) ∧
    (131072 ≤ n.natAbs →
      exec (.fromIntWithDecimal n k) s = .next { s with
        resp := some ((scaleDown s.mulRound k (Config.fromIntOor s.draws)).setWidth 32), draws := s.draws + 1 }) ∧
    exec (.fromIntWithDecimal 65504 (k + 9)) s = .next { s with resp := some 0 }

/-! ### add and subtract (43_adder.md) -/

/-- R171: an infinity operand is returned bit for bit, `a` first. -/
def Obligations.AddPassesInfinity : Prop :=
  ∀ (a b : Word) (s : State),
    (expOf a = 31 → exec (.add a b) s = .next { s with resp := some (a.setWidth 32) }) ∧
    (expOf a ≠ 31 → expOf b = 31 → exec (.add a b) s = .next { s with resp := some (b.setWidth 32) })

/-- R172 to R175 as one signed sum: for operands that are no infinity, align both mantissas to the larger exponent and add them as
signed integers. A zero sum gives 0x0000; otherwise the sign is the sum's, the exponent the larger one moved by the place of the leading 1, the
mantissa the ten bits below it, truncated; a negative exponent, which needs different signs and a larger exponent of at most 9, gives a free value,
and an exponent above 31 does not arise. -/
def Obligations.AddIsTruncatedSignedSum : Prop :=
  ∀ (a b : Word) (s : State) (EL : Nat) (T : Int), expOf a ≠ 31 → expOf b ≠ 31 →
    EL = max (expOf a) (expOf b) → T = signedAligned EL a + signedAligned EL b →
    decode (0x6#4 ++ 0#12 ++ 0#16 ++ a ++ b) = .ok (.add a b) ∧
    (T = 0 → exec (.add a b) s = .next { s with resp := some 0 }) ∧
    (∀ d : Nat, 2 ^ d ≤ T.natAbs → T.natAbs < 2 ^ (d + 1) →
      (10 ≤ EL + d → EL + d - 10 ≤ 31 ∧
        exec (.add a b) s = .next { s with resp := some (BitVec.ofNat 32
          (wordNat (decide (T < 0)) (EL + d - 10) (T.natAbs * 1024 / 2 ^ d - 1024))) }) ∧
      (EL + d < 10 → isNeg a ≠ isNeg b ∧ EL ≤ 9 ∧
        exec (.add a b) s =
          .next { s with resp := some ((Config.addUnderflow s.draws).setWidth 32), draws := s.draws + 1 }))

/-- R177: SUB is ADD with the sign of `b` flipped, and it completes. -/
def Obligations.SubtractIsAddOfNegated : Prop :=
  ∀ (a b : Word) (s : State),
    decode (0x7#4 ++ 0#12 ++ 0#16 ++ a ++ b) = .ok (.subtract a b) ∧
    ∃ t, exec (.subtract a b) s = .next t ∧ exec (.add a (b ^^^ 0x8000#16)) s = .next t

/-- Adding a zero (43_adder.md R176): a word with an exponent of 11 to 30 is unchanged; every word with an exponent of at most 10 is changed, but
for +0 with −0 added, which R173's tie rule makes +0; and zeros of opposite signs give +0. -/
def Obligations.AddOfZero : Prop :=
  ∀ (x z : Word), z = 0x0000 ∨ z = 0x8000 →
    (11 ≤ expOf x → expOf x ≤ 30 → add z x = .value x ∧ add x z = .value x) ∧
    (expOf x ≤ 10 → ¬ (x = 0x0000 ∧ z = 0x8000) → add z x ≠ .value x ∧ add x z ≠ .value x) ∧
    add z (negate z) = .value 0x0000

/-- Addition commutes unless both operands are infinities, and a word that is no infinity cancels with its negation (43_adder.md section 3). -/
def Obligations.AddLaws : Prop :=
  (∀ a b : Word, ¬ (expOf a = 31 ∧ expOf b = 31) → add a b = add b a) ∧
  ∀ x : Word, expOf x ≠ 31 → add x (negate x) = .value 0x0000 ∧ subtract x x = .value 0x0000

/-! ### multiply (44_multiplier.md) -/

/-- R202: a zero operand gives a zero with the combined sign, even against an infinity. -/
def Obligations.MultiplyZeroFirst : Prop :=
  ∀ (a b : Word) (s : State), a &&& 0x7FFF#16 = 0 ∨ b &&& 0x7FFF#16 = 0 →
    exec (.multiply a b) s = .next { s with resp := some (if isNeg a = isNeg b then 0 else 0x8000) }

/-- R203: otherwise an infinity operand gives the canonical infinity with the combined sign. -/
def Obligations.MultiplyInfinity : Prop :=
  ∀ (a b : Word) (s : State), a &&& 0x7FFF#16 ≠ 0 → b &&& 0x7FFF#16 ≠ 0 → expOf a = 31 ∨ expOf b = 31 →
    exec (.multiply a b) s = .next { s with resp := some (if isNeg a = isNeg b then 0x7C00 else 0xFC00) }

/-- R204: otherwise a combined exponent of 0 or below is flushed to +0, whatever the signs. -/
def Obligations.MultiplyFlushesToZero : Prop :=
  ∀ (a b : Word) (s : State), a &&& 0x7FFF#16 ≠ 0 → b &&& 0x7FFF#16 ≠ 0 → expOf a ≠ 31 → expOf b ≠ 31 →
    expOf a + expOf b ≤ 15 →
    exec (.multiply a b) s = .next { s with resp := some 0 }

/-- R205 to R208: the significand path in numbers, under the reading the state holds: the product significand with its cross term truncated,
one renormalising shift, one round bit, saturation. -/
def Obligations.MultiplySignificandPath : Prop :=
  ∀ (a b : Word) (s : State) (U sh e r W : Nat), a &&& 0x7FFF#16 ≠ 0 → b &&& 0x7FFF#16 ≠ 0 → expOf a ≠ 31 → expOf b ≠ 31 →
    16 ≤ expOf a + expOf b →
    U = 1024 + manOf a * manOf b / 1024 + manOf a + manOf b →
    sh = (if U < 2048 then 0 else 1) → e = expOf a + expOf b - 15 + sh →
    r = (if U % 2 = 1 ∧ e ≠ 30 ∧ (s.mulRound = .always ∨ sh = 1) then 1 else 0) → W = U / 2 ^ sh + r →
    decode (0x8#4 ++ 0#12 ++ 0#16 ++ a ++ b) = .ok (.multiply a b) ∧
    exec (.multiply a b) s = .next { s with resp := some (BitVec.ofNat 32
      (if e + W / 2048 ≥ 31 then wordNat (isNeg a != isNeg b) 31 0
       else wordNat (isNeg a != isNeg b) (e + W / 2048) (W % 1024))) }

/-- R201: under either reading, a product on the underflow path (no zero operand, exponents that sum to at most 15) is +0, the word 0x0000; on
every other path its sign is the exclusive or of the operands' signs. -/
def Obligations.MultiplySign : Prop :=
  ∀ (rd : MulRoundReading) (a b : Word),
    (a &&& 0x7FFF#16 ≠ 0 ∧ b &&& 0x7FFF#16 ≠ 0 ∧ expOf a + expOf b ≤ 15 → multiply rd a b = 0x0000) ∧
    (¬ (a &&& 0x7FFF#16 ≠ 0 ∧ b &&& 0x7FFF#16 ≠ 0 ∧ expOf a + expOf b ≤ 15) →
      isNeg (multiply rd a b) = (isNeg a != isNeg b))

/-- R209: under either reading multiply commutes, and it yields a signed zero, a NORMAL word or a canonical infinity only. -/
def Obligations.MultiplyLaws : Prop :=
  ∀ (rd : MulRoundReading) (a b : Word), multiply rd a b = multiply rd b a ∧
    classOf (multiply rd a b) ≠ .exp0 ∧ (classOf (multiply rd a b) = .inf → manOf (multiply rd a b) = 0)

/-- The significand's range (44_multiplier.md R205) and the carry of the rounding step (R209): under ON_SHIFT it is unreachable, under ALWAYS it
is reached, and rounding never carries a result into infinity. -/
def Obligations.RoundingCarry : Prop :=
  (∀ ma mb : Nat, ma ≤ 1023 → mb ≤ 1023 →
    1024 ≤ productSignificand ma mb ∧ productSignificand ma mb ≤ 4092 ∧
    ∀ ce : Int,
      let U := productSignificand ma mb
      (roundStep (roundBit .onShift (U.testBit 11) U) ce (mask10 (if U.testBit 11 then U >>> 1 else U))).1 = ce) ∧
  (∀ (rbit : Bool) (ce : Int) (m : Nat), ce ≤ 30 → (roundStep rbit ce m).1 ≤ 30) ∧
  multiply .always 0x3BF8 0x3C04 = 0x3C00 ∧ multiply .onShift 0x3BF8 0x3C04 = 0x3BFF

/-! ### reciprocal and divide (42_reciprocal_nr.md, 45_divider.md) -/

/-- R150: the threshold is from_int(30720), the word 0x7780, whose value is 30720; the constants 2 and 10 are from_int's too (42_reciprocal_nr.md
R152, 41_integer_conversion.md R126). -/
def Obligations.ConstantsComeFromInt : Prop :=
  fromInt (2 * 1024 * 15) = .value Config.recipThreshold ∧ Config.recipThreshold = 0x7780 ∧
  scaledValue Config.recipThreshold = some (30720 * 2 ^ 25) ∧
  fromInt 2 = .value Config.two ∧ Config.two = 0x4000 ∧ fromInt 10 = .value Config.ten ∧ Config.ten = 0x4900

/-- R151, R152: a magnitude of at least 0x7780, every infinity included, gives 0x0000, whatever the sign; below it the seed is the raw difference,
two Newton-Raphson steps refine it, neither of their subtractions meets a draw, and the sign of the operand replaces bit 15. -/
def Obligations.ReciprocalIsTwoSteps : Prop :=
  ∀ (x mag : Word) (s : State), mag = x &&& 0x7FFF#16 →
    decode (0x5#4 ++ 0#12 ++ 0#16 ++ x ++ 0#16) = .ok (.reciprocal x) ∧
    (0x7780 ≤ mag.toNat → exec (.reciprocal x) s = .next { s with resp := some 0 }) ∧
    (mag.toNat < 0x7780 → ∃ e₀ d₁ e₁ d₂ e₂ : Word,
      e₀.toNat = 0x7780 - mag.toNat ∧
      subtract 0x4000 (multiply s.mulRound mag e₀) = .value d₁ ∧ e₁ = multiply s.mulRound e₀ d₁ ∧
      subtract 0x4000 (multiply s.mulRound mag e₁) = .value d₂ ∧ e₂ = multiply s.mulRound e₁ d₂ ∧
      exec (.reciprocal x) s = .next
        { s with resp := some (((e₂ &&& 0x7FFF#16) ||| (if isNeg x then 0x8000#16 else 0#16)).setWidth 32) })

/-- The estimate is not negative after either step, for every magnitude below the threshold and under either reading, so the result is the estimate
with the operand's sign (42_reciprocal_nr.md R154). -/
def Obligations.EstimateIsNotNegative : Prop :=
  ∀ (rd : MulRoundReading) (mag : Word), mag.toNat < 0x7780 →
    isNeg (nrStep rd mag (0x7780#16 - mag)) = false ∧ isNeg (estimate rd mag) = false

/-- The reciprocals of the two zeros are the infinities of their signs, under either reading; the reciprocals of words with the same magnitude differ
in the sign only; and a reciprocal is a signed zero, a NORMAL word or a canonical infinity (42_reciprocal_nr.md R153, 30_encoding.md R73). -/
def Obligations.ReciprocalResults : Prop :=
  ∀ rd : MulRoundReading,
    reciprocal rd 0x0000 = 0x7C00 ∧ reciprocal rd 0x8000 = 0xFC00 ∧
    (∀ x : Word, (x &&& 0x7FFF#16).toNat < 0x7780 → reciprocal rd (negate x) = negate (reciprocal rd x)) ∧
    ∀ x : Word, classOf (reciprocal rd x) ≠ .exp0 ∧ (classOf (reciprocal rd x) = .inf → manOf (reciprocal rd x) = 0)

/-- R230: DIV is the multiplication of the dividend by the reciprocal of the divisor. -/
def Obligations.DivideIsMultiplyByReciprocal : Prop :=
  ∀ (a b : Word) (s : State),
    decode (0x9#4 ++ 0#12 ++ 0#16 ++ a ++ b) = .ok (.divide a b) ∧
    ∃ r : Word, exec (.reciprocal b) s = .next { s with resp := some (r.setWidth 32) } ∧
      exec (.divide a b) s = exec (.multiply a r) s ∧ ∃ t, exec (.divide a b) s = .next t

/-- The corner cases of divide (45_divider.md R231): by a zero, of a zero by a zero, by a large divisor, and of an infinity. -/
def Obligations.DivideCorners : Prop :=
  ∀ (rd : MulRoundReading) (a b : Word),
    (a &&& 0x7FFF#16 ≠ 0 → expOf a ≠ 31 → b &&& 0x7FFF#16 = 0 →
      divide rd a b = if isNeg a = isNeg b then 0x7C00 else 0xFC00) ∧
    (a &&& 0x7FFF#16 = 0 → b &&& 0x7FFF#16 = 0 → divide rd a b = if isNeg a = isNeg b then 0x0000 else 0x8000) ∧
    (0x7780 ≤ (b &&& 0x7FFF#16).toNat → divide rd a b = if isNeg a then 0x8000 else 0x0000) ∧
    (expOf a = 31 → reciprocal rd b &&& 0x7FFF#16 ≠ 0 →
      divide rd a b = if isNeg a = isNeg (reciprocal rd b) then 0x7C00 else 0xFC00)

/-- A program may write subtract and divide as their compositions and get the same words (30_encoding.md R84): the two-statement program and the
one-statement program leave the same response and the same value in the last variable, from every state. -/
def Obligations.CompositionsGiveTheSameWords : Prop :=
  ∀ (s : State) (a b : Word) (t c : Nat), t ≠ c → ∃ u u' w w',
    runProgram { s with program := [.call c .subtract [.word a, .word b]] } = .next u ∧
    runProgram { s with program := [.call t .negate [.word b], .call c .add [.word a, .var t]] } = .next u' ∧
    u.resp = u'.resp ∧ readVar c u.vars = readVar c u'.vars ∧
    runProgram { s with program := [.call c .divide [.word a, .word b]] } = .next w ∧
    runProgram { s with program := [.call t .reciprocal [.word b], .call c .multiply [.word a, .var t]] } = .next w' ∧
    w.resp = w'.resp ∧ readVar c w.vars = readVar c w'.vars

/-! ### Words (30_encoding.md R72, R76) -/

/-- The class and the value of every word (30_encoding.md R72): a signed zero, a finite value by one formula whatever the exponent, in units of
2^−25 (log 17), or a signed infinity whatever the mantissa. -/
def Obligations.WordsHaveClassAndValue : Prop :=
  ∀ x : Word,
    (expOf x = 0 → manOf x = 0 → classOf x = .zero ∧ valueOf x = .zero (isNeg x)) ∧
    (expOf x = 0 → manOf x ≠ 0 → classOf x = .exp0 ∧
      valueOf x = .finite ((if isNeg x then -1 else 1) * (1024 + manOf x))) ∧
    (1 ≤ expOf x → expOf x ≤ 30 → classOf x = .normal ∧
      valueOf x = .finite ((if isNeg x then -1 else 1) * (1024 + manOf x) * 2 ^ expOf x)) ∧
    (expOf x = 31 → classOf x = .inf ∧ valueOf x = .inf (isNeg x))

/-- For words of one sign that are no infinities, the raw order of the 15-bit magnitudes is the order of the magnitudes of their values, and every
infinity is above them (30_encoding.md R76). -/
def Obligations.RawOrderIsValueOrder : Prop :=
  ∀ (x y : Word) (v w : Int), isNeg x = isNeg y → scaledValue x = some v → scaledValue y = some w →
    ((x &&& 0x7FFF#16).toNat < (y &&& 0x7FFF#16).toNat ↔ v.natAbs < w.natAbs) ∧
    (∀ z : Word, scaledValue z = none → (x &&& 0x7FFF#16).toNat < (z &&& 0x7FFF#16).toNat)

/-! ### Invariants and whole programs -/

/-- Every step keeps the host's side in order: its variables stay in canonical form and its integers stay integers of 32 bits, so every request it
forms can be encoded. -/
def Obligations.StepKeepsHostInOrder : Prop :=
  ∀ s t : State, hostOk s = true → step s = .next t → hostOk t = true

/-- The host's side is in order after reset, and an empty program is well-kinded. -/
def Obligations.ResetHostInOrder : Prop :=
  hostOk State.reset = true ∧ wellKinded State.reset = true

/-- What assembly buys (30_encoding.md R83): from every state whose host is in order and whose remaining program passes the assembler's check, a step
goes on to such a state, or stops for one of three reasons: the program is at its end, the statement reads an unwritten variable, or a raw request is
malformed. No operand is ever of the wrong kind or out of its field. -/
def Obligations.AssembledStepsAreSound : Prop :=
  ∀ s : State, hostOk s = true → wellKinded s = true →
    (∃ t, step s = .next t ∧ hostOk t = true ∧ wellKinded t = true ∧ s.program.length = t.program.length + 1) ∨
    (s.program = [] ∧ step s = .fault .noRequest) ∨
    (∃ v dst op args rest, s.program = .call dst op args :: rest ∧ .var v ∈ args ∧ readVar v s.vars = none ∧
      step s = .fault (.unwrittenVariable v)) ∨
    (∃ req rest why, s.program = .raw req :: rest ∧ step s = .refused (.reservedEncoding why))

/-- A program that assembles and holds no raw request is never refused when it runs: it runs to its end, its last response delivered, or faults at a
read of an unwritten variable (30_encoding.md R83, 70_reset_and_hazards.md R275; that loading starts with no variable written and keeps the rest of
the state is log 6). -/
def Obligations.AssembledProgramsAreNeverRefused : Prop :=
  ∀ (lines : List SourceLine) (s t : State), s.load lines = .next t → noRaw t.program = true →
    (∃ u, runProgram t = .next u ∧ u.program = []) ∨ (∃ v, runProgram t = .fault (.unwrittenVariable v))

/-- The sugar of nested calls (30_encoding.md R83): an expression expands into its calls, innermost first and left argument before right, each with
its mnemonic and with the operands that name its arguments' results, into the consecutive variables from the first fresh one (their numbers are
the model's, log 13); and where that one is above the expression's variables, no statement writes a variable of the expression. -/
def Obligations.NestedCallsExpandInOrder : Prop :=
  ∀ (e : Expr) (fresh : Nat),
    expand e fresh = (callsInOrder fresh e, resultOperand fresh e, fresh + callCount e) ∧
    (expand e fresh).1.map destOf = (List.range (callCount e)).map (fun j => some (fresh + j)) ∧
    (e.above ≤ fresh → ∀ v ∈ varsIn e, some v ∉ (expand e fresh).1.map destOf)

/-- Running the expansion of a call expression gives the value of the nested calls (30_encoding.md R83): where the host is in order, the first fresh
variable is above the expression's variables, the expansion passes the assembler's check and the nested calls have a value, the run of its statements
goes on to what follows them with that value in the result operand, the draws the calls took, and every variable below the fresh ones as it was. -/
def Obligations.NestedCallsRunToTheirValue : Prop :=
  ∀ (e : Expr) (fresh : Nat) (s t : State) (x : HostValue) (rest : List Stmt),
    hostOk s = true → e.above ≤ fresh → checkStmts (kindsOf s.vars) (expand e fresh).1 = none →
    evalExpr e s = some (x, t) →
    ∃ u, runSteps (callCount e) { s with program := (expand e fresh).1 ++ rest } = .next u ∧ u.program = rest ∧
      operandValue u (expand e fresh).2.1 = some x ∧ u.resp = t.resp ∧ u.draws = t.draws ∧
      ∀ v, v < fresh → readVar v u.vars = readVar v s.vars
end

