-- ==== Sys2Proof/Laws/Encoding.lean ====
section
/-! SUPPORT. The number a request word is, and its fields as quotients and remainders (30_encoding.md R77). -/

namespace Sys2Proof

theorem append_toNat {m n : Nat} (x : BitVec m) (y : BitVec n) : (x ++ y).toNat = x.toNat * 2 ^ n + y.toNat := by
  rw [BitVec.toNat_append, ← Nat.shiftLeft_add_eq_or_of_lt y.isLt, Nat.shiftLeft_eq]

theorem requestWord_toNat (op : Mnemonic) (k : BitVec 16) (payload : BitVec 32) :
    (requestWord op k payload).toNat = op.opcode.toNat * 2 ^ 60 + k.toNat * 2 ^ 32 + payload.toNat := by
  simp only [requestWord, append_toNat]
  simp only [BitVec.toNat_ofNat, BitVec.ofNat_eq_ofNat]
  omega

theorem op_toNat (req : Request) : (Request.op req).toNat = req.toNat / 2 ^ 60 := by
  have := req.isLt
  simp only [Request.op, BitVec.extractLsb'_toNat, Nat.shiftRight_eq_div_pow]
  omega

theorem rsv_toNat (req : Request) : (Request.rsv req).toNat = req.toNat / 2 ^ 48 % 2 ^ 12 := by
  simp only [Request.rsv, BitVec.extractLsb'_toNat, Nat.shiftRight_eq_div_pow]

theorem k_toNat (req : Request) : (Request.k req).toNat = req.toNat / 2 ^ 32 % 2 ^ 16 := by
  simp only [Request.k, BitVec.extractLsb'_toNat, Nat.shiftRight_eq_div_pow]

theorem payload_toNat (req : Request) : (Request.payload req).toNat = req.toNat % 2 ^ 32 := by
  simp only [Request.payload, BitVec.extractLsb'_toNat, Nat.shiftRight_eq_div_pow, Nat.pow_zero, Nat.div_one]

theorem a_toNat (req : Request) : (Request.a req).toNat = req.toNat / 2 ^ 16 % 2 ^ 16 := by
  simp only [Request.a, BitVec.extractLsb'_toNat, Nat.shiftRight_eq_div_pow]

theorem b_toNat (req : Request) : (Request.b req).toNat = req.toNat % 2 ^ 16 := by
  simp only [Request.b, BitVec.extractLsb'_toNat, Nat.shiftRight_eq_div_pow, Nat.pow_zero, Nat.div_one]

end Sys2Proof
end

