-- ==== Sys2Proof/Laws/State.lean ====
section
/-! SUPPORT. One lemma per field per update of State, so that no proof unfolds a record update. -/

namespace Sys2Proof.Machine

@[simp] theorem respondWord_resp (y : Word) (s : State) : (s.respondWord y).resp = some (y.setWidth 32) := rfl
@[simp] theorem respondWord_mulRound (y : Word) (s : State) : (s.respondWord y).mulRound = s.mulRound := rfl
@[simp] theorem respondWord_draws (y : Word) (s : State) : (s.respondWord y).draws = s.draws := rfl
@[simp] theorem respondWord_program (y : Word) (s : State) : (s.respondWord y).program = s.program := rfl
@[simp] theorem respondWord_vars (y : Word) (s : State) : (s.respondWord y).vars = s.vars := rfl

@[simp] theorem respondInt_resp (z : Int) (s : State) : (s.respondInt z).resp = some (BitVec.ofInt 32 z) := rfl
@[simp] theorem respondInt_mulRound (z : Int) (s : State) : (s.respondInt z).mulRound = s.mulRound := rfl
@[simp] theorem respondInt_draws (z : Int) (s : State) : (s.respondInt z).draws = s.draws := rfl
@[simp] theorem respondInt_program (z : Int) (s : State) : (s.respondInt z).program = s.program := rfl
@[simp] theorem respondInt_vars (z : Int) (s : State) : (s.respondInt z).vars = s.vars := rfl

@[simp] theorem countDraws_resp (r : Result) (s : State) : (s.countDraws r).resp = s.resp := rfl
@[simp] theorem countDraws_mulRound (r : Result) (s : State) : (s.countDraws r).mulRound = s.mulRound := rfl
@[simp] theorem countDraws_draws (r : Result) (s : State) : (s.countDraws r).draws = s.draws + r.drawCount := rfl
@[simp] theorem countDraws_program (r : Result) (s : State) : (s.countDraws r).program = s.program := rfl
@[simp] theorem countDraws_vars (r : Result) (s : State) : (s.countDraws r).vars = s.vars := rfl

@[simp] theorem respond_resp (r : Result) (s : State) : (s.respond r).resp = some ((r.settle s.draws).setWidth 32) := rfl
@[simp] theorem respond_mulRound (r : Result) (s : State) : (s.respond r).mulRound = s.mulRound := rfl
@[simp] theorem respond_draws (r : Result) (s : State) : (s.respond r).draws = s.draws + r.drawCount := rfl
@[simp] theorem respond_program (r : Result) (s : State) : (s.respond r).program = s.program := rfl
@[simp] theorem respond_vars (r : Result) (s : State) : (s.respond r).vars = s.vars := rfl

@[simp] theorem present_resp (req : Request) (s : State) : (s.present req).resp = s.resp := rfl
@[simp] theorem present_mulRound (req : Request) (s : State) : (s.present req).mulRound = s.mulRound := rfl
@[simp] theorem present_draws (req : Request) (s : State) : (s.present req).draws = s.draws := rfl
@[simp] theorem present_program (req : Request) (s : State) : (s.present req).program = .raw req :: s.program := rfl
@[simp] theorem present_vars (req : Request) (s : State) : (s.present req).vars = s.vars := rfl

@[simp] theorem settle_value (n : Nat) (y : Word) : (Result.value y).settle n = y := rfl
@[simp] theorem settle_unspecified (n : Nat) (d : Draw) : (Result.unspecified d).settle n = Config.drawn d n := rfl
@[simp] theorem drawCount_value (y : Word) : (Result.value y).drawCount = 0 := rfl
@[simp] theorem drawCount_unspecified (d : Draw) : (Result.unspecified d).drawCount = 1 := rfl
@[simp] theorem drawn_fromIntOor (n : Nat) : Config.drawn .fromIntOor n = Config.fromIntOor n := rfl
@[simp] theorem drawn_addUnderflow (n : Nat) : Config.drawn .addUnderflow n = Config.addUnderflow n := rfl

end Sys2Proof.Machine
end

