-- ==== Sys2Proof/Laws/Exec.lean ====
section
/-! SUPPORT. What `exec`, `fp16Core` and `step` can do, said once. -/

namespace Sys2Proof.Machine

@[simp] theorem exec_fromInt (n : Int) (s : State) : exec (.fromInt n) s = .next (s.respond (fromInt n)) := rfl
@[simp] theorem exec_toInt (a : Word) (s : State) : exec (.toInt a) s = .next (s.respondInt (toInt a)) := rfl
@[simp] theorem exec_fromIntWithDecimal (n : Int) (k : Nat) (s : State) :
    exec (.fromIntWithDecimal n k) s
      = .next ((s.countDraws (fromInt n)).respondWord (scaleDown s.mulRound k ((fromInt n).settle s.draws))) := rfl
@[simp] theorem exec_negate (a : Word) (s : State) : exec (.negate a) s = .next (s.respondWord (negate a)) := rfl
@[simp] theorem exec_abs (a : Word) (s : State) : exec (.abs a) s = .next (s.respondWord (absWord a)) := rfl
@[simp] theorem exec_reciprocal (a : Word) (s : State) :
    exec (.reciprocal a) s = .next (s.respondWord (reciprocal s.mulRound a)) := rfl
@[simp] theorem exec_add (a b : Word) (s : State) : exec (.add a b) s = .next (s.respond (add a b)) := rfl
@[simp] theorem exec_subtract (a b : Word) (s : State) : exec (.subtract a b) s = .next (s.respond (subtract a b)) := rfl
@[simp] theorem exec_multiply (a b : Word) (s : State) :
    exec (.multiply a b) s = .next (s.respondWord (multiply s.mulRound a b)) := rfl
@[simp] theorem exec_divide (a b : Word) (s : State) :
    exec (.divide a b) s = .next (s.respondWord (divide s.mulRound a b)) := rfl

/-- Every request that runs answers with some response, and counts at most one draw. -/
theorem exec_shape (i : Instr) (s : State) :
    ∃ (r : Response) (c : Nat), c ≤ 1 ∧ exec i s = .next { s with resp := some r, draws := s.draws + c } := by
  have hc : ∀ r : Result, r.drawCount ≤ 1 := fun r => by cases r <;> simp
  cases i with
  | fromInt n => exact ⟨_, _, hc (fromInt n), rfl⟩
  | fromIntWithDecimal n k => exact ⟨_, _, hc (fromInt n), rfl⟩
  | add a b => exact ⟨_, _, hc (add a b), rfl⟩
  | subtract a b => exact ⟨_, _, hc (subtract a b), rfl⟩
  | _ => exact ⟨_, 0, Nat.zero_le 1, rfl⟩

/-- A request is answered by its instruction, or refused by the decoder. -/
theorem fp16Core_cases (req : Request) (s : State) :
    (∃ i, decode req = .ok i ∧ fp16Core req s = exec i s) ∨
    (∃ why, decode req = .error why ∧ fp16Core req s = .refused (.reservedEncoding why)) := by
  unfold fp16Core
  cases h : decode req with
  | ok i => exact .inl ⟨i, rfl, rfl⟩
  | error why => exact .inr ⟨why, rfl, rfl⟩

/-- What `step` can answer with a next state: a raw request ran, or a statement ran and its variable was written. -/
theorem step_next_cases {s t : State} (h : step s = .next t) :
    (∃ req rest i, s.program = .raw req :: rest ∧ decode req = .ok i ∧ exec i { s with program := rest } = .next t) ∨
    (∃ dst op args rest req i u r, s.program = .call dst op args :: rest ∧ requestOf s.vars op args = .next req ∧
      decode req = .ok i ∧ exec i { s with program := rest } = .next u ∧ u.resp = some r ∧
      t = { u with vars := writeVar dst (valueOfResponse op r) u.vars }) := by
  unfold step issueNext at h
  split at h
  · cases h
  · next req rest hp =>
    rcases fp16Core_cases req { s with program := rest } with ⟨i, hd, he⟩ | ⟨why, _, he⟩
    · exact .inl ⟨req, rest, i, hp, hd, he ▸ h⟩
    · rw [he] at h; cases h
  · next dst op args rest hp =>
    split at h
    · next req hr =>
      rcases fp16Core_cases req { s with program := rest } with ⟨i, hd, he⟩ | ⟨why, _, he⟩
      · obtain ⟨r, c, _, hx⟩ := exec_shape i { s with program := rest }
        rw [he, hx] at h
        simp only [storeResponse, readResponse] at h
        cases h
        exact .inr ⟨dst, op, args, rest, req, i, _, r, hp, hr, hd, hx, rfl, rfl⟩
      · rw [he] at h; cases h
    · cases h
    · cases h

end Sys2Proof.Machine
end

