-- ==== Sys2Proof/Laws/HostVars.lean ====
section
/-! SUPPORT. The laws of the host variables: a read after a write, and that a write keeps the canonical form. -/

namespace Sys2Proof.Machine

@[simp] theorem readVar_writeVar_same (v : Nat) (x : HostValue) (vars : List (Nat × HostValue)) :
    readVar v (writeVar v x vars) = some x := by
  induction vars with
  | nil => simp [writeVar, readVar]
  | cons p rest ih =>
    obtain ⟨u, y⟩ := p
    simp only [writeVar]
    split
    · simp [readVar]
    · split
      · simp [readVar]
      · next h₂ => rw [readVar, if_neg (fun h => h₂ h.symm), ih]

theorem readVar_writeVar_other {v w : Nat} (h : w ≠ v) (x : HostValue) (vars : List (Nat × HostValue)) :
    readVar w (writeVar v x vars) = readVar w vars := by
  induction vars with
  | nil => simp [writeVar, readVar, h.symm]
  | cons p rest ih =>
    obtain ⟨u, y⟩ := p
    simp only [writeVar]
    split
    · rw [readVar, if_neg (Ne.symm h)]
    · split
      · next h₂ => subst h₂; simp [readVar, h.symm]
      · simp only [readVar, ih]

theorem risingAbove_writeVar {w v : Nat} (x : HostValue) {vars : List (Nat × HostValue)} (hwv : w < v)
    (h : risingAbove w vars = true) : risingAbove w (writeVar v x vars) = true := by
  induction vars generalizing w with
  | nil => simp [writeVar, risingAbove, hwv]
  | cons p rest ih =>
    obtain ⟨u, y⟩ := p
    simp only [risingAbove, Bool.and_eq_true, decide_eq_true_eq] at h
    simp only [writeVar]
    split
    · next h₁ => simp [risingAbove, hwv, h₁, h.2]
    · split
      · next h₂ => subst h₂; simp [risingAbove, hwv, h.2]
      · next h₁ h₂ =>
        have huv : u < v := by omega
        simp [risingAbove, h.1, ih huv h.2]

/-- Writing a variable keeps the canonical form. -/
theorem varsWf_writeVar (v : Nat) (x : HostValue) {vars : List (Nat × HostValue)} (h : varsWf vars = true) :
    varsWf (writeVar v x vars) = true := by
  cases vars with
  | nil => rfl
  | cons p rest =>
    obtain ⟨u, y⟩ := p
    simp only [varsWf] at h
    simp only [writeVar]
    split
    · next h₁ => simp [varsWf, risingAbove, h₁, h]
    · split
      · next h₂ => subst h₂; exact h
      · next h₁ h₂ => exact risingAbove_writeVar x (by omega) h

/-- What a written list holds is what it held, or the value written. -/
theorem mem_writeVar {v : Nat} {x : HostValue} {vars : List (Nat × HostValue)} {p : Nat × HostValue}
    (h : p ∈ writeVar v x vars) : p = (v, x) ∨ p ∈ vars := by
  induction vars with
  | nil => simpa [writeVar] using h
  | cons q rest ih =>
    obtain ⟨u, y⟩ := q
    simp only [writeVar] at h
    split at h
    · simpa using h
    · split at h
      · rcases List.mem_cons.mp h with h | h
        · exact .inl h
        · exact .inr (List.mem_cons_of_mem _ h)
      · rcases List.mem_cons.mp h with h | h
        · exact .inr (h ▸ List.mem_cons_self)
        · exact (ih h).imp id (List.mem_cons_of_mem _)

end Sys2Proof.Machine
end

