-- ==== Sys2Proof/Laws/HostProgram.lean ====
section
/-! SUPPORT. What forming a statement's operands can do, and that the assembler's kinds are the kinds of the values. -/

namespace Sys2Proof.Machine

/-- An operand that has a value has one of the kind its position asks for. -/
theorem evalOperand_next_kind {vars : List (Nat × HostValue)} {p : Param} {o : Operand} {x : HostValue}
    (h : evalOperand vars p o = .next x) : x.kind = p.kind := by
  cases o with
  | word w =>
    simp only [evalOperand] at h
    split at h <;> cases h
    next hp => subst hp; rfl
  | int n =>
    simp only [evalOperand] at h
    split at h
    · cases h
    · split at h <;> cases h
      cases p <;> first | rfl | contradiction
  | var v =>
    simp only [evalOperand] at h
    split at h
    · cases h
    · split at h
      · cases h
      · split at h <;> cases h
        assumption

/-- A response is kept with the kind the assembler gives its statement. -/
@[simp] theorem valueOfResponse_kind (op : Mnemonic) (r : Response) : (valueOfResponse op r).kind = resultKind op := by
  unfold valueOfResponse resultKind
  split <;> rfl

/-- The assembler's kind of a written variable is the kind of what it holds. -/
theorem lookup_kindsOf (v : Nat) (vars : List (Nat × HostValue)) :
    (kindsOf vars).lookup v = (readVar v vars).map HostValue.kind := by
  induction vars with
  | nil => rfl
  | cons p rest ih =>
    obtain ⟨u, y⟩ := p
    change List.lookup v ((u, y.kind) :: kindsOf rest) = _
    rw [List.lookup_cons, readVar]
    by_cases h : u = v
    · subst h; simp
    · have h' : (v == u) = false := by simpa using Ne.symm h
      rw [if_neg h, h', ih]

/-- The result of an expression is named by its last fresh variable, or is the operand it is. -/
@[simp] theorem resultOperand_arg (fresh : Nat) (o : Operand) : resultOperand fresh (.arg o) = o := rfl

end Sys2Proof.Machine
end

