-- ==== Sys2Proof/Laws/Ops.lean ====
section
/-! SUPPORT. What each shared operation computes, said once: the fields of a packed word, bit_length, align10, the mask. -/

namespace Sys2Proof.Machine

theorem mask10_eq_mod (v : Nat) : mask10 v = v % 1024 := Nat.and_two_pow_sub_one_eq_mod v 10

theorem pack_toNat (s : Bool) (e m : Nat) (he : e ≤ 31) (hm : m ≤ 1023) :
    (pack s e m he hm).toNat = s.toNat * 32768 + e * 1024 + m := by
  have h₁ : e <<< 10 < 2 ^ 15 := by rw [Nat.shiftLeft_eq]; omega
  have h₂ : s.toNat <<< 15 ||| e <<< 10 = s.toNat <<< 15 + e <<< 10 := (Nat.shiftLeft_add_eq_or_of_lt h₁ _).symm
  have h₃ : s.toNat <<< 15 ||| e <<< 10 ||| m = s.toNat <<< 15 + e <<< 10 + m := by
    have hw : s.toNat <<< 15 + e <<< 10 = (s.toNat * 32 + e) <<< 10 := by simp only [Nat.shiftLeft_eq]; omega
    rw [h₂, hw]
    exact (Nat.shiftLeft_add_eq_or_of_lt (by omega) _).symm
  have hs : s.toNat ≤ 1 := by cases s <;> decide
  rw [pack, BitVec.toNat_ofNat, h₃]
  simp only [Nat.shiftLeft_eq]
  omega

theorem S_eq (x : Word) : S x = decide (32768 ≤ x.toNat) := by
  have := x.isLt
  simp only [S, BitVec.getLsbD, Nat.testBit_eq_decide_div_mod_eq]
  congr 1
  apply propext
  omega

theorem E_eq (x : Word) : E x = x.toNat / 1024 % 32 := by
  simp [E, BitVec.extractLsb'_toNat, Nat.shiftRight_eq_div_pow]

theorem M_eq (x : Word) : M x = x.toNat % 1024 := by
  simp [M, BitVec.extractLsb'_toNat]

@[simp] theorem S_pack (s : Bool) (e m : Nat) (he : e ≤ 31) (hm : m ≤ 1023) : S (pack s e m he hm) = s := by
  rw [S_eq, pack_toNat]
  cases s <;> simp <;> omega

@[simp] theorem E_pack (s : Bool) (e m : Nat) (he : e ≤ 31) (hm : m ≤ 1023) : E (pack s e m he hm) = e := by
  rw [E_eq, pack_toNat]
  cases s <;> simp <;> omega

@[simp] theorem M_pack (s : Bool) (e m : Nat) (he : e ≤ 31) (hm : m ≤ 1023) : M (pack s e m he hm) = m := by
  rw [M_eq, pack_toNat]
  cases s <;> simp <;> omega

/-- A word is what its three fields pack to. -/
theorem toNat_eq_fields (x : Word) : x.toNat = (S x).toNat * 32768 + E x * 1024 + M x := by
  have := x.isLt
  rw [S_eq, E_eq, M_eq]
  by_cases h : 32768 ≤ x.toNat <;> simp [h] <;> omega

/-- Words with equal fields are equal. -/
theorem word_ext_fields {x y : Word} (hS : S x = S y) (hE : E x = E y) (hM : M x = M y) : x = y := by
  apply BitVec.eq_of_toNat_eq
  rw [toNat_eq_fields x, toNat_eq_fields y, hS, hE, hM]

@[simp] theorem units_zero (neg : Bool) : (WordValue.zero neg).units = some 0 := rfl
@[simp] theorem units_finite (units : Int) : (WordValue.finite units).units = some units := rfl
@[simp] theorem units_inf (neg : Bool) : (WordValue.inf neg).units = none := rfl

theorem bitLength_bounds (n : Nat) (h : 0 < n) : 2 ^ (bitLength n h - 1) ≤ n ∧ n < 2 ^ bitLength n h :=
  ⟨Nat.log2_self_le (by omega), Nat.lt_log2_self⟩

@[simp] theorem align10_digits (C : Nat) (h : 0 < C) : (align10 C h).1 = Nat.log2 C := rfl

/-- The mantissa is the ten bits below the leading 1, whichever way the shift goes. -/
theorem align10_mantissa (C : Nat) (h : 0 < C) : (align10 C h).2 = C * 1024 / 2 ^ Nat.log2 C - 1024 := by
  have hlo : 2 ^ Nat.log2 C ≤ C := Nat.log2_self_le (by omega)
  have hhi : C < 2 ^ (Nat.log2 C + 1) := Nat.lt_log2_self
  simp only [align10, bitLength, Nat.add_sub_cancel, mask10_eq_mod]
  generalize Nat.log2 C = d at *
  have hq : ∀ q : Nat, 1024 ≤ q → q < 2048 → q % 1024 = q - 1024 := by omega
  split
  · next hd =>
    obtain ⟨k, rfl⟩ := Nat.exists_eq_add_of_le hd
    have h2 : 2 ^ (10 + k) = 1024 * 2 ^ k := by rw [Nat.pow_add]
    have hdiv : C * 1024 / 2 ^ (10 + k) = C / 2 ^ k := by
      rw [h2, Nat.mul_comm C, Nat.mul_div_mul_left _ _ (by decide)]
    rw [hdiv, Nat.shiftRight_eq_div_pow, Nat.add_sub_cancel_left]
    have hk : 0 < 2 ^ k := Nat.two_pow_pos k
    apply hq
    · rw [Nat.le_div_iff_mul_le hk]; omega
    · rw [Nat.div_lt_iff_lt_mul hk, Nat.pow_succ] at *; omega
  · next hd =>
    obtain ⟨k, hk⟩ := Nat.exists_eq_add_of_le (Nat.le_of_not_le hd)
    have h2 : 1024 = 2 ^ d * 2 ^ k := by rw [← Nat.pow_add, ← hk]
    have hdiv : C * 1024 / 2 ^ d = C * 2 ^ k := by
      rw [h2, ← Nat.mul_assoc, Nat.mul_comm C, Nat.mul_assoc, Nat.mul_div_cancel_left _ (Nat.two_pow_pos d)]
    have hdk : 10 - d = k := by omega
    rw [hdiv, Nat.shiftLeft_eq, hdk]
    have hp : 0 < 2 ^ k := Nat.two_pow_pos k
    rw [Nat.pow_succ] at hhi
    apply hq
    · calc 1024 = 2 ^ d * 2 ^ k := h2
        _ ≤ C * 2 ^ k := Nat.mul_le_mul_right _ hlo
    · calc C * 2 ^ k < 2 ^ d * 2 * 2 ^ k := Nat.mul_lt_mul_of_pos_right hhi hp
        _ = 2048 := by rw [Nat.mul_right_comm, ← h2]

end Sys2Proof.Machine
end

