-- ==== Sys2Proof/Laws/PerInstr.lean ====
section
/-! SUPPORT. Facts about the instructions as syntax, one lemma per constructor. -/

namespace Sys2Proof.Laws.RequestHeader

/-- The request word of an instruction carries its op code and a zero RSV (30_encoding.md R77, R79). -/
def Statement (i : Instr) : Prop :=
  Request.op (encode i) = i.mnemonic.opcode ∧ Request.rsv (encode i) = 0

theorem requestWord_header (op : Mnemonic) (k : BitVec 16) (payload : BitVec 32) :
    Request.op (requestWord op k payload) = op.opcode ∧ Request.rsv (requestWord op k payload) = 0 := by
  have hop := op.opcode.isLt
  have hk := k.isLt
  have hp := payload.isLt
  constructor
  · apply BitVec.eq_of_toNat_eq
    rw [op_toNat, requestWord_toNat]
    omega
  · apply BitVec.eq_of_toNat_eq
    rw [rsv_toNat, requestWord_toNat]
    simp only [BitVec.ofNat_eq_ofNat, BitVec.toNat_ofNat]
    omega

theorem fromInt (n : Int) : Statement (.fromInt n) := requestWord_header _ _ _
theorem toInt (a : Word) : Statement (.toInt a) := requestWord_header _ _ _
theorem fromIntWithDecimal (n : Int) (k : Nat) : Statement (.fromIntWithDecimal n k) := requestWord_header _ _ _
theorem negate (a : Word) : Statement (.negate a) := requestWord_header _ _ _
theorem abs (a : Word) : Statement (.abs a) := requestWord_header _ _ _
theorem reciprocal (a : Word) : Statement (.reciprocal a) := requestWord_header _ _ _
theorem add (a b : Word) : Statement (.add a b) := requestWord_header _ _ _
theorem subtract (a b : Word) : Statement (.subtract a b) := requestWord_header _ _ _
theorem multiply (a b : Word) : Statement (.multiply a b) := requestWord_header _ _ _
theorem divide (a b : Word) : Statement (.divide a b) := requestWord_header _ _ _

end Sys2Proof.Laws.RequestHeader
end

