-- ==== Sys2Proof/Machine/Notation.lean ====
section
/-! DEFINITION. The characters of the host's notation: statements, literals and nested calls read into source lines (30_encoding.md R83;
log 14). -/

namespace Sys2Proof.Machine

/-- The tokens of a line. -/
inductive Token where
  | var (v : Nat)
  | word (w : Word)
  /-- an integer literal with its `#` -/
  | int (n : Int)
  /-- an integer without `#`, as the source's nested calls write it -/
  | bare (n : Int)
  | name (cs : List Char)
  | equals
  | comma
  | lpar
  | rpar
  deriving DecidableEq, Repr

/-- The characters of a name. -/
def isNameChar (c : Char) : Bool := c.isAlphanum || c == '_'

/-- A variable's number from its name: its characters as digits to the base 2^21, so that different names are different variables. -/
def varOfName (cs : List Char) : Nat := cs.foldl (fun n c => n * 2 ^ 21 + c.toNat) 0

/-- The digits of the notation's two bases: a hexadecimal literal uses all of them, a decimal one the first ten (30_encoding.md R83). -/
def digits : List Char := "0123456789ABCDEF".toList

/-- A numeral to a base of at most 16, most significant digit first; none where it is empty or holds what is no digit of the base. A small
letter counts as its capital (log 14). -/
def numeral (base : Nat) (cs : List Char) : Option Nat :=
  if cs.isEmpty then none
  else cs.foldlM (fun n c => ((digits.take base).idxOf? c.toUpper).map (n * base + ·)) 0

/-- A word literal: exactly four hexadecimal digits (30_encoding.md R83). -/
def hexWord (cs : List Char) : Option Word :=
  if cs.length = 4 then (numeral 16 cs).map (BitVec.ofNat 16) else none

/-- A decimal integer at the head of the characters, with its sign, and the characters after it. -/
def lexInt : List Char → Option (Int × List Char)
  | '-' :: cs => (numeral 10 (cs.takeWhile isNameChar)).map (fun n => (-(n : Int), cs.dropWhile isNameChar))
  | cs => (numeral 10 (cs.takeWhile isNameChar)).map (fun n => ((n : Int), cs.dropWhile isNameChar))

/-- The tokens of the characters, at most `fuel` of them. -/
def lex : Nat → List Char → Option (List Token)
  | _, [] => some []
  | 0, _ => none
  | fuel + 1, c :: cs =>
    let rest := cs.dropWhile isNameChar
    let nameOf := cs.takeWhile isNameChar
    if c = ' ' then lex fuel cs
    else if c = '=' then (lex fuel cs).map (.equals :: ·)
    else if c = ',' then (lex fuel cs).map (.comma :: ·)
    else if c = '(' then (lex fuel cs).map (.lpar :: ·)
    else if c = ')' then (lex fuel cs).map (.rpar :: ·)
    else if c = '%' then
      if nameOf.isEmpty then none else (lex fuel rest).map (.var (varOfName nameOf) :: ·)
    else if c = '#' then
      match lexInt cs with
      | none => none
      | some r => (lex fuel r.2).map (.int r.1 :: ·)
    else if c = '0' ∧ nameOf.head? = some 'x' then
      match hexWord nameOf.tail with
      | none => none
      | some w => (lex fuel rest).map (.word w :: ·)
    else if c = '-' ∨ c.isDigit then
      match lexInt (c :: cs) with
      | none => none
      | some r => (lex fuel r.2).map (.bare r.1 :: ·)
    else if c.isAlpha then (lex fuel rest).map (.name (c :: nameOf) :: ·)
    else none

/-- The mnemonic of a spelling (30_encoding.md R79). -/
def mnemonicOf (cs : List Char) : Option Mnemonic :=
  Mnemonic.all.find? (fun op => op.spelling.toList == cs)

/-- An operand of the statement form (30_encoding.md R83). -/
def operandOf : Token → Option Operand
  | .var v => some (.var v)
  | .word w => some (.word w)
  | .int n => some (.int n)
  | _ => none

/-- An operand of the nested form, whose integers may stand without `#` (30_encoding.md R83). -/
def argOf : Token → Option Operand
  | .bare n => some (.int n)
  | t => operandOf t

/-- The operands of a statement: one or more, commas between them (30_encoding.md R83). -/
def parseOperands : List Token → Option (List Operand)
  | [t] => (operandOf t).map ([·])
  | t :: .comma :: rest =>
    match operandOf t, parseOperands rest with
    | some o, some os => some (o :: os)
    | _, _ => none
  | _ => none

/-- A call expression at the head of the tokens, and the tokens after it; at most `fuel` nested calls (30_encoding.md R83). -/
def parseExpr : Nat → List Token → Option (Expr × List Token)
  | 0, _ => none
  | fuel + 1, .name cs :: .lpar :: rest =>
    match mnemonicOf cs, parseExpr fuel rest with
    | some op, some (e₁, .rpar :: rest₁) => some (.call1 op e₁, rest₁)
    | some op, some (e₁, .comma :: rest₁) =>
      match parseExpr fuel rest₁ with
      | some (e₂, .rpar :: rest₂) => some (.call2 op e₁ e₂, rest₂)
      | _ => none
    | _, _ => none
  | _ + 1, t :: rest => (argOf t).map (fun o => (.arg o, rest))
  | _ + 1, [] => none

/-- A whole list of tokens as one call expression. -/
def parseWhole (ts : List Token) : Option Expr :=
  match parseExpr (ts.length + 1) ts with
  | some (e, []) => some e
  | _ => none

/-- A line of a program (30_encoding.md R83). -/
def parseTokens : List Token → Option SourceLine
  | .var dst :: .equals :: .name cs :: .lpar :: rest =>
    (parseWhole (.name cs :: .lpar :: rest)).map (.assign dst ·)
  | .var dst :: .equals :: .name cs :: rest =>
    match mnemonicOf cs, parseOperands rest with
    | some op, some os => some (.stmt (.call dst op os))
    | _, _ => none
  | .name cs :: rest => (parseWhole (.name cs :: rest)).map .expr
  | _ => none

/-- The line that a string of characters writes, if it writes one (30_encoding.md R83). -/
def parseLine (cs : List Char) : Option SourceLine :=
  match lex cs.length cs with
  | some ts => parseTokens ts
  | none => none

/-- The lines of a program. -/
def parseProgram (lines : List (List Char)) : Option (List SourceLine) := lines.mapM parseLine

end Sys2Proof.Machine
end

