-- ==== Sys2Proof/Tests/Slice0.lean ====
section
/-! SUPPORT. Tests whose expected results stand in spec/ (each names where), the smoke test of WellFormed, and a witness for the hypotheses of
every statement. -/

namespace Sys2Proof.Tests

open Sys2Proof.Machine

/-- The response of an outcome, if it is a next state. -/
def respOf : Host.Outcome State Fault Refusal → Option Response
  | .next t => t.resp
  | _ => none

/-- The host variables of an outcome, if it is a next state. -/
def varsOf : Host.Outcome State Fault Refusal → Option (List (Nat × HostValue))
  | .next t => some t.vars
  | _ => none

/-- The draws taken in an outcome, if it is a next state. -/
def drawsOf : Host.Outcome State Fault Refusal → Option Nat
  | .next t => some t.draws
  | _ => none

/-- The refusal of an outcome. -/
def refusalOf {α : Type} : Host.Outcome α Fault Refusal → Option Refusal
  | .refused r => some r
  | _ => none

/-- The fault of an outcome. -/
def faultOf {α : Type} : Host.Outcome α Fault Refusal → Option Fault
  | .fault f => some f
  | _ => none

/-- The reset state with a program. -/
def withProgram (p : List Stmt) : State := { State.reset with program := p }

/-- The reset state under the reading ALWAYS. -/
def alwaysState : State := { State.reset with mulRound := .always }

/-! ### WellFormed refuses each ill-formed term -/

theorem test_wellFormed_fromInt_too_large : (Instr.fromInt 2147483648).wellFormed = false := by decide
theorem test_wellFormed_fromInt_too_small : (Instr.fromInt (-2147483649)).wellFormed = false := by decide
theorem test_wellFormed_decimal_integer : (Instr.fromIntWithDecimal 2147483648 1).wellFormed = false := by decide
theorem test_wellFormed_decimal_count : (Instr.fromIntWithDecimal 1 65536).wellFormed = false := by decide

/-! ### Decoding: words written out from the encodings of 30_encoding.md R77 to R79 -/

theorem test_decode_from_int :
    (decode 0b0000000000000000000000000000000011111111111111111111111110001000).toOption = some (.fromInt (-120)) := by decide
theorem test_decode_to_int :
    (decode 0b0001000000000000000000000000000011010111001100000000000000000000).toOption = some (.toInt 0xD730) := by decide
theorem test_decode_from_int_with_decimal :
    (decode 0b0010000000000000000000000000000111111111111111111111111111001110).toOption
      = some (.fromIntWithDecimal (-50) 1) := by decide
theorem test_decode_negate :
    (decode 0b0011000000000000000000000000000000110101010101100000000000000000).toOption = some (.negate 0x3556) := by decide
theorem test_decode_abs :
    (decode 0b0100000000000000000000000000000010110101010101100000000000000000).toOption = some (.abs 0xB556) := by decide
theorem test_decode_reciprocal :
    (decode 0b0101000000000000000000000000000001001001100000000000000000000000).toOption = some (.reciprocal 0x4980) := by decide
theorem test_decode_add :
    (decode 0b0110000000000000000000000000000011010111100000000100010100000000).toOption = some (.add 0xD780 0x4500) := by decide
theorem test_decode_subtract :
    (decode 0b0111000000000000000000000000000001000000000000000011110000100000).toOption
      = some (.subtract 0x4000 0x3C20) := by decide
theorem test_decode_multiply :
    (decode 0b1000000000000000000000000000000001000010000000000011010110000000).toOption
      = some (.multiply 0x4200 0x3580) := by decide
theorem test_decode_divide :
    (decode 0b1001000000000000000000000000000001011000011110000100100110000000).toOption
      = some (.divide 0x5878 0x4980) := by decide

/-- The malformed requests of 95_test_vectors.md 2.11. -/
theorem test_refuse_reserved_op : refusalOf (fp16Core 0xA000000000000000 State.reset) = some (.reservedEncoding .opCode) := by decide
theorem test_refuse_rsv : refusalOf (fp16Core 0x0010000000000005 State.reset) = some (.reservedEncoding .rsv) := by decide
theorem test_refuse_k_of_format_I :
    refusalOf (fp16Core 0x0000000100000005 State.reset) = some (.reservedEncoding .mustBeZero) := by decide
theorem test_refuse_low_half_of_format_U :
    refusalOf (fp16Core 0x1000000038000001 State.reset) = some (.reservedEncoding .mustBeZero) := by decide

/-- The words of the opcode table run as the first request after reset. -/
theorem test_table_words_decode :
    [0, 1, 2, 3, 4, 5, 6, 7, 8, 9].map (fun op => (decodeTableWord 64 (op * 2 ^ 60)).map Instr.mnemonic)
      = Mnemonic.all.map some := by decide
theorem test_table_words_run :
    [0, 1, 2, 3, 4, 5, 6, 7, 8, 9].all (fun op => completes (step (State.reset.withFetchWord 64 (op * 2 ^ 60)))) = true := by decide

/-! ### One step of each instruction; expected words from 95_test_vectors.md part 2 (the section is named) -/

/-- 2.3: truncation, and an infinity-tagged word -/
theorem test_from_int :
    respOf (exec (.fromInt 5678) State.reset) = some 0x00006D8B ∧
    respOf (exec (.fromInt (-131071)) State.reset) = some 0x0000FFFF := by decide
/-- 2.3: the draw is counted -/
theorem test_from_int_draws : drawsOf (exec (.fromInt 131072) State.reset) = some 1 := by decide
/-- 2.4: an infinity's mantissa is read, and the response is the two's complement -/
theorem test_to_int_inf : respOf (exec (.toInt 0xFFFF) State.reset) = some 0xFFFE0040 := by decide
/-- 2.4: truncation toward zero -/
theorem test_to_int_negative : respOf (exec (.toInt 0xBE00) State.reset) = some 0xFFFFFFFF := by decide
/-- 2.5 -/
theorem test_decimal_on_shift : respOf (exec (.fromIntWithDecimal (-50) 1) State.reset) = some 0x0000C502 := by decide
/-- 2.5 -/
theorem test_decimal_always : respOf (exec (.fromIntWithDecimal 1000 1) alwaysState) = some 0x00005640 := by decide
/-- 2.2 -/
theorem test_negate_inf : respOf (exec (.negate 0xFC55) State.reset) = some 0x00007C55 := by decide
/-- 2.2 -/
theorem test_abs_inf : respOf (exec (.abs 0xFFFF) State.reset) = some 0x00007FFF := by decide
/-- 2.6 -/
theorem test_reciprocal_on_shift : respOf (exec (.reciprocal 0xC800) State.reset) = some 0x0000AFFF := by decide
/-- 2.6 -/
theorem test_reciprocal_always : respOf (exec (.reciprocal 0xF08D) alwaysState) = some 0x00008708 := by decide
/-- 2.7 -/
theorem test_add_mixed_signs : respOf (exec (.add 0xD780 0x4500) State.reset) = some 0x0000D730 := by decide
/-- 2.7: a zero operand is reconstructed like any other word -/
theorem test_add_zero_operand : respOf (exec (.add 0x0000 0x2800) State.reset) = some 0x00002801 := by decide
/-- 2.8 -/
theorem test_subtract : respOf (exec (.subtract 0x3C00 0x3C01) State.reset) = some 0x00009400 := by decide
/-- 2.8: the draw is counted -/
theorem test_subtract_draws : drawsOf (exec (.subtract 0x0400 0x0401) State.reset) = some 1 := by decide
/-- 2.9: the two readings differ -/
theorem test_multiply_on_shift : respOf (exec (.multiply 0x3C01 0x3C00) State.reset) = some 0x00003C01 := by decide
/-- 2.9: ALWAYS carries out of the mantissa -/
theorem test_multiply_always : respOf (exec (.multiply 0x3BF8 0x3C04) alwaysState) = some 0x00003C00 := by decide
/-- 2.10 -/
theorem test_divide : respOf (exec (.divide 0x63D0 0xC800) State.reset) = some 0x0000D7CF := by decide
/-- 2.10: infinity by infinity -/
theorem test_divide_inf_by_inf : respOf (exec (.divide 0xFC00 0x78E2) State.reset) = some 0x00008000 := by decide

/-- 2.1: bit_length, align10, pack -/
theorem test_helpers :
    bitLength 6 (by decide) = 3 ∧ align10 5678 (by decide) = (12, 0x18B) ∧ align10 6 (by decide) = (2, 0x200) ∧
    pack true 31 0x3FF (by decide) (by decide) = 0xFFFF := by decide

/-- 30_encoding.md R72: the zeros and the infinities keep their sign; 0xC000 is −2. -/
theorem test_values :
    valueOf 0x0000 = .zero false ∧ valueOf 0x8000 = .zero true ∧ valueOf 0x7C00 = .inf false ∧ valueOf 0xFC55 = .inf true ∧
    valueOf 0xC000 = .finite (-2 * 2 ^ 25) := by decide

/-! ### The host's programs (95_test_vectors.md part 3) -/

/-- P1, third statement: the operands come from host variables. -/
theorem test_statement_reads_variables :
    varsOf (step { withProgram [.call 2 .add [.var 0, .var 1]] with vars := [(0, .word 0xD780), (1, .word 0x4500)] })
      = some [(0, .word 0xD780), (1, .word 0x4500), (2, .word 0xD730)] := by decide
/-- P1, fourth statement: to_int writes an integer. -/
theorem test_statement_writes_integer :
    varsOf (step { withProgram [.call 3 .toInt [.var 2]] with vars := [(2, .word 0xD730)] })
      = some [(2, .word 0xD730), (3, .int (-115))] := by decide
/-- P6 -/
theorem test_raw_request_refused :
    refusalOf (step (withProgram [.raw 0xA000000000000000])) = some (.reservedEncoding .opCode) := by decide
/-- P7 -/
theorem test_unwritten_variable : faultOf (step (withProgram [.call 1 .negate [.var 0]])) = some (.unwrittenVariable 0) := by decide
/-- R83: a word where an integer is expected is refused at assembly. -/
theorem test_assemble_refuses_kind : refusalOf (assemble [.stmt (.call 0 .fromInt [.word 0x3C00])]) = some .operandKind := by decide
/-- R83: the scaling operand is at most 65535. -/
theorem test_assemble_refuses_scaling :
    refusalOf (assemble [.stmt (.call 0 .fromIntWithDecimal [.int 1, .int 65536])]) = some .literalRange := by decide
/-- P1's statements in their characters. -/
theorem test_parse_statement :
    parseLine "%c = add %a, %b".toList = some (.stmt (.call 99 .add [.var 97, .var 98])) := by decide
theorem test_parse_literals :
    parseLine "%v = from_int_with_decimal #-50, #1".toList = some (.stmt (.call 118 .fromIntWithDecimal [.int (-50), .int 1])) ∧
    parseLine "%q = divide 0x3C00, %z".toList = some (.stmt (.call 113 .divide [.word 0x3C00, .var 122])) := by decide
/-- The example of R83. -/
theorem test_parse_nested :
    parseLine "to_int(add(from_int(-7), from_int(7)))".toList
      = some (.expr (.call1 .toInt (.call2 .add (.call1 .fromInt (.arg (.int (-7)))) (.call1 .fromInt (.arg (.int 7)))))) := by decide
/-- R83: a hexadecimal literal has four digits. -/
theorem test_parse_refuses_short_literal : parseLine "%q = negate 0x3C0".toList = none := by decide
/-- R83: innermost call first, left argument before right, each into a fresh variable. -/
theorem test_expand_nested :
    (expand (.call1 .toInt (.call2 .add (.call1 .fromInt (.arg (.int (-7)))) (.call1 .fromInt (.arg (.int 7))))) 4).1
      = [.call 4 .fromInt [.int (-7)], .call 5 .fromInt [.int 7], .call 6 .add [.var 4, .var 5], .call 7 .toInt [.var 6]] := by decide

/-! ### Witnesses: concrete states and operands that meet the hypotheses of each statement, one for each clause -/

theorem witness_DecodeInvertsEncode :
    (Instr.fromInt (-2147483648)).wellFormed = true ∧ (Instr.fromIntWithDecimal 2147483647 65535).wellFormed = true := by decide
theorem witness_EncodeInvertsDecode : decode 0x20000001FFFFFFCE = .ok (.fromIntWithDecimal (-50) 1) := rfl
theorem witness_DecoderIsMatchAndMask :
    Mnemonic.add.selects 0x60000000D7804500 = true ∧ Mnemonic.all.all (fun op => !op.selects 0x0000000100000005) = true := by decide
theorem witness_MalformedRequestsAreRefused :
    10 ≤ ((0xA000000000000000 : Request) >>> 60).toNat ∧ (0x0001000000000000 : Request) &&& 0x0FFF000000000000 ≠ 0 ∧
    (((0x6000000100003C00 : Request) >>> 60).toNat ≠ 2 ∧ (0x6000000100003C00 : Request) &&& 0x0000FFFF00000000 ≠ 0) ∧
    (((0x5000000000000001 : Request) >>> 60).toNat ∈ [1, 3, 4, 5] ∧ (0x5000000000000001 : Request) &&& 0x000000000000FFFF ≠ 0) := by decide
theorem witness_MalformedRequestsAreRefused_mark :
    fp16Core 0xA000000000000000 State.reset = .refused (.reservedEncoding .opCode) := rfl
theorem witness_StepRunsRawRequest :
    (withProgram [.raw 0x30000000B5560000]).program = .raw 0x30000000B5560000 :: [] ∧
    decode 0x30000000B5560000 = .ok (.negate 0xB556) := ⟨rfl, rfl⟩
theorem witness_PresentedWordRunsNext :
    0x9000000058784980 < 2 ^ 64 ∧ decode (BitVec.ofNat 64 0x9000000058784980) = .ok (.divide 0x5878 0x4980) := ⟨by decide, rfl⟩
theorem witness_StepRunsStatement :
    (withProgram [.call 0 .fromInt [.int 2147483647]]).program = .call 0 .fromInt [.int 2147483647] :: [] ∧
    evalOperands [] (paramsOf .fromInt) [.int 2147483647] = .next [.int 2147483647] ∧
    hostOk (withProgram [.call 0 .fromInt [.int 2147483647]]) = true ∧ (Instr.fromInt 2147483647).wellFormed = true :=
  ⟨rfl, rfl, by decide, by decide⟩
theorem witness_UnwrittenVariableFaults_one_operand :
    readVar 7 (withProgram [.call 0 .toInt [.var 7]]).vars = none ∧ Mnemonic.toInt.format = .U ∧
    (withProgram [.call 0 .toInt [.var 7]]).program = .call 0 .toInt [.var 7] :: [] ∧ Mnemonic.fromInt.format = .I ∧
    (withProgram [.call 0 .fromInt [.var 7]]).program = .call 0 .fromInt [.var 7] :: [] := by decide
theorem witness_UnwrittenVariableFaults_first_of_two :
    Mnemonic.add.format = .B ∧ (withProgram [.call 0 .add [.var 7, .int 5]]).program = .call 0 .add [.var 7, .int 5] :: [] ∧
    Mnemonic.fromIntWithDecimal.format = .D ∧
    (withProgram [.call 0 .fromIntWithDecimal [.var 7, .int 70000]]).program
      = .call 0 .fromIntWithDecimal [.var 7, .int 70000] :: [] := by decide
theorem witness_UnwrittenVariableFaults_second_of_two :
    ∃ s : State, readVar 7 s.vars = none ∧ readVar 3 s.vars = some (.word 0x3C00) ∧
      s.program = .call 0 .add [.var 3, .var 7] :: [] :=
  ⟨{ withProgram [.call 0 .add [.var 3, .var 7]] with vars := [(3, .word 0x3C00)] }, rfl, rfl, rfl⟩
theorem witness_UnwrittenVariableFaults_second_after_literal :
    readVar 7 (withProgram [.call 0 .add [.word 0, .var 7]]).vars = none ∧
    (withProgram [.call 0 .add [.word 0, .var 7]]).program = .call 0 .add [.word 0, .var 7] :: [] := by decide
theorem witness_StatementWritesOneVariable :
    ∃ t, step (withProgram [.call 0 .negate [.word 0x3C00]]) = .next t := ⟨_, rfl⟩
theorem witness_InstructionsWriteOnlyTheResponse : ∃ t, exec (.add 0x0000 0x8001) State.reset = .next t := ⟨_, rfl⟩
theorem witness_DrawsOnlyWhereUnspecified :
    ([.fromInt 131072, .fromIntWithDecimal (-131072) 2, .add 0x0000 0x8001, .subtract 0x0400 0x0401] : List Instr).all
      (fun i => drawsOf (exec i State.reset) == some 1) = true := by decide
/-- Mixed signs and low exponents: a zero sum (R176) and e = 0 (95_test_vectors.md, the note on add(0x0400, 0x8000)) take no draw; e = −1 takes one. -/
theorem witness_DrawsOnlyWhereUnspecified_low_exponents :
    sumUnderflows 0x0000 0x8000 = false ∧ sumUnderflows 0x0400 0x8000 = false ∧ sumUnderflows 0x0200 0x8000 = true ∧
    ([.add 0x0000 0x8000, .add 0x0400 0x8000, .subtract 0x0400 0x0000] : List Instr).all
      (fun i => drawsOf (exec i State.reset) == some 0) = true ∧
    drawsOf (exec (.add 0x0200 0x8000) State.reset) = some 1 := by decide
theorem witness_ResponseDependsOnRequestOnly :
    (∃ t, fp16Core 0x0000000000020000 State.reset = .next t) ∧
    (∃ t, fp16Core 0x0000000000000001 State.reset = .next t ∧ t.draws = State.reset.draws) := ⟨⟨_, rfl⟩, ⟨_, rfl, rfl⟩⟩
theorem witness_FromIntEncodesMagnitude :
    intFits (-2147483648) = true ∧ intFits 0 = true ∧ intFits 131071 = true ∧
    2 ^ 0 ≤ (1 : Int).natAbs ∧ (1 : Int).natAbs < 2 ^ 1 ∧ 2 ^ 16 ≤ (131071 : Int).natAbs ∧ (131071 : Int).natAbs < 2 ^ 17 ∧
    131072 ≤ (-131072 : Int).natAbs := by decide
theorem witness_FromIntProperties : (-131071 : Int).natAbs ≤ 131071 ∧ (-131071 : Int) ≠ 0 ∧ (65535 : Int).natAbs ≤ 65535 ∧
    65536 ≤ (65536 : Int).natAbs := by decide
theorem witness_RoundTripTruncates : (131071 : Int).natAbs ≤ 131071 := by decide
theorem witness_ToIntTruncatesValue : scaledValue 0xFBFF = some (-65504 * 2 ^ 25) ∧ scaledValue 0x8001 = some (-1025) := by decide
theorem witness_DecimalModeMultipliesKTimes :
    ∃ v : Nat → Word, v 0 = (fromInt 1000).settle State.reset.draws ∧
      ∀ j, j < 1 → v (j + 1) = multiply State.reset.mulRound (v j) (reciprocal State.reset.mulRound 0x4900) :=
  ⟨fun j => if j = 0 then 0x63D0 else 0x5643, by decide, by decide⟩
theorem witness_DecimalModeMultipliesKTimes_encoding : intFits (-2147483648) = true ∧ 65535 < 2 ^ 16 := by decide
theorem witness_DecimalModeCorners :
    65536 ≤ (65536 : Int).natAbs ∧ (-131071 : Int).natAbs ≤ 131071 ∧ 131072 ≤ (131072 : Int).natAbs := by decide
theorem witness_AddPassesInfinity : expOf 0x7C55 = 31 ∧ expOf 0x7BFF ≠ 31 := by decide
theorem witness_AddIsTruncatedSignedSum_zero :
    expOf 0x3C00 ≠ 31 ∧ expOf 0xBC00 ≠ 31 ∧ 15 = max (expOf 0x3C00) (expOf 0xBC00) ∧
    0 = signedAligned 15 0x3C00 + signedAligned 15 0xBC00 := by decide
theorem witness_AddIsTruncatedSignedSum_word :
    21 = max (expOf 0xD780) (expOf 0x4500) ∧ -1840 = signedAligned 21 0xD780 + signedAligned 21 0x4500 ∧
    2 ^ 10 ≤ (-1840 : Int).natAbs ∧ (-1840 : Int).natAbs < 2 ^ 11 ∧ 10 ≤ 21 + 10 := by decide
theorem witness_AddIsTruncatedSignedSum_draw :
    0 = max (expOf 0x0000) (expOf 0x8001) ∧ -1 = signedAligned 0 0x0000 + signedAligned 0 0x8001 ∧
    2 ^ 0 ≤ (-1 : Int).natAbs ∧ (-1 : Int).natAbs < 2 ^ 1 ∧ 0 + 0 < 10 := by decide
/-- EL + d = 9, the last draw. -/
theorem witness_AddIsTruncatedSignedSum_below_range :
    0 = max (expOf 0x0200) (expOf 0x8000) ∧ 512 = signedAligned 0 0x0200 + signedAligned 0 0x8000 ∧
    2 ^ 9 ≤ (512 : Int).natAbs ∧ (512 : Int).natAbs < 2 ^ 10 ∧ 0 + 9 < 10 := by decide
/-- EL + d = 10, the first word. -/
theorem witness_AddIsTruncatedSignedSum_in_range :
    1 = max (expOf 0x0400) (expOf 0x8000) ∧ 512 = signedAligned 1 0x0400 + signedAligned 1 0x8000 ∧
    2 ^ 9 ≤ (512 : Int).natAbs ∧ (512 : Int).natAbs < 2 ^ 10 ∧ 10 ≤ 1 + 9 := by decide
/-- EL + d = 41, the largest exponent. -/
theorem witness_AddIsTruncatedSignedSum_top :
    30 = max (expOf 0x7BFF) (expOf 0x7BFF) ∧ 4094 = signedAligned 30 0x7BFF + signedAligned 30 0x7BFF ∧
    2 ^ 11 ≤ (4094 : Int).natAbs ∧ (4094 : Int).natAbs < 2 ^ 12 ∧ 30 + 11 = 41 := by decide
theorem witness_AddOfZero :
    11 ≤ expOf 0x2C00 ∧ expOf 0x7BFF ≤ 30 ∧ expOf 0x2800 ≤ 10 ∧ ¬ ((0x2800 : Word) = 0x0000 ∧ (0x8000 : Word) = 0x8000) := by decide
theorem witness_AddLaws : ¬ (expOf 0x7C00 = 31 ∧ expOf 0x3C00 = 31) ∧ expOf 0x3C00 ≠ 31 := by decide
theorem witness_MultiplyZeroFirst : (0x8000 : Word) &&& 0x7FFF#16 = 0 := by decide
theorem witness_MultiplyInfinity : (0x4000 : Word) &&& 0x7FFF#16 ≠ 0 ∧ (0x7C55 : Word) &&& 0x7FFF#16 ≠ 0 ∧ expOf 0x7C55 = 31 := by decide
theorem witness_MultiplyFlushesToZero :
    (0x9C00 : Word) &&& 0x7FFF#16 ≠ 0 ∧ (0x2000 : Word) &&& 0x7FFF#16 ≠ 0 ∧ expOf 0x9C00 ≠ 31 ∧ expOf 0x2000 ≠ 31 ∧
    expOf 0x9C00 + expOf 0x2000 ≤ 15 := by decide
theorem witness_MultiplySignificandPath :
    (0x3C02 : Word) &&& 0x7FFF#16 ≠ 0 ∧ (0x3FFE : Word) &&& 0x7FFF#16 ≠ 0 ∧ expOf 0x3C02 ≠ 31 ∧ expOf 0x3FFE ≠ 31 ∧
    16 ≤ expOf 0x3C02 + expOf 0x3FFE ∧ 2049 = 1024 + manOf 0x3C02 * manOf 0x3FFE / 1024 + manOf 0x3C02 + manOf 0x3FFE ∧
    1 = (if 2049 < 2048 then 0 else 1) ∧ 16 = expOf 0x3C02 + expOf 0x3FFE - 15 + 1 ∧
    1 = (if 2049 % 2 = 1 ∧ 16 ≠ 30 ∧ (State.reset.mulRound = .always ∨ 1 = 1) then 1 else 0) ∧ 1025 = 2049 / 2 ^ 1 + 1 := by decide
/-- Exponents that sum to 15, then 16, then a zero operand. -/
theorem witness_MultiplySign :
    ((0x9C00 : Word) &&& 0x7FFF#16 ≠ 0 ∧ (0x2000 : Word) &&& 0x7FFF#16 ≠ 0 ∧ expOf 0x9C00 + expOf 0x2000 ≤ 15) ∧
    ¬ expOf 0xA000 + expOf 0x2000 ≤ 15 ∧ ¬ (0x8000 : Word) &&& 0x7FFF#16 ≠ 0 := by decide
theorem witness_RoundingCarry : 1023 ≤ 1023 ∧ (30 : Int) ≤ 30 := by decide
theorem witness_ReciprocalIsTwoSteps :
    (0x7780 : Word) = 0xF780 &&& 0x7FFF#16 ∧ 0x7780 ≤ (0x7780 : Word).toNat ∧
    (0x777F : Word) = 0xF77F &&& 0x7FFF#16 ∧ (0x777F : Word).toNat < 0x7780 := by decide
theorem witness_EstimateIsNotNegative : (0x777F : Word).toNat < 0x7780 := by decide
theorem witness_ReciprocalResults : ((0xF77F : Word) &&& 0x7FFF#16).toNat < 0x7780 ∧ classOf (reciprocal .onShift 0x8000) = .inf := by decide
theorem witness_DivideCorners :
    ((0x4500 : Word) &&& 0x7FFF#16 ≠ 0 ∧ expOf 0x4500 ≠ 31 ∧ (0x8000 : Word) &&& 0x7FFF#16 = 0) ∧
    0x7780 ≤ ((0xFC00 : Word) &&& 0x7FFF#16).toNat ∧
    (expOf 0x7C55 = 31 ∧ reciprocal .onShift 0x4000 &&& 0x7FFF#16 ≠ 0 ∧ reciprocal .always 0x4000 &&& 0x7FFF#16 ≠ 0) := by decide
theorem witness_CompositionsGiveTheSameWords : (0 : Nat) ≠ 1 := by decide
theorem witness_WordsHaveClassAndValue :
    (expOf 0x8000 = 0 ∧ manOf 0x8000 = 0) ∧ (expOf 0x83FF = 0 ∧ manOf 0x83FF ≠ 0) ∧ (1 ≤ expOf 0x0400 ∧ expOf 0x7BFF ≤ 30) ∧
    expOf 0xFC55 = 31 := by decide
theorem witness_RawOrderIsValueOrder :
    isNeg 0x0001 = isNeg 0x7BFF ∧ scaledValue 0x0001 = some 1025 ∧ scaledValue 0x7BFF = some (65504 * 2 ^ 25) ∧
    scaledValue 0x7C00 = none := by decide
theorem witness_StepKeepsHostInOrder :
    ∃ s t, hostOk s = true ∧ step s = .next t ∧ s.vars = [(1, .int (-2147483648)), (4, .word 0x3C00)] :=
  ⟨{ withProgram [.call 2 .fromInt [.var 1]] with vars := [(1, .int (-2147483648)), (4, .word 0x3C00)] }, _, by decide, rfl, rfl⟩
theorem witness_AssembledStepsAreSound :
    hostOk (withProgram [.call 0 .negate [.word 0x3C00], .call 1 .add [.var 0, .var 9], .raw 0]) = true ∧
    wellKinded (withProgram [.call 0 .negate [.word 0x3C00], .call 1 .add [.var 0, .var 9], .raw 0]) = true := by decide
theorem witness_AssembledProgramsAreNeverRefused :
    ∃ t, State.reset.load [.expr (.call1 .toInt (.call1 .fromInt (.arg (.int 5))))] = .next t ∧ noRaw t.program = true := ⟨_, rfl, by decide⟩

theorem witness_NestedCallsExpandInOrder :
    (Expr.call2 .add (.arg (.var 3)) (.call1 .negate (.arg (.word 0x3C00)))).above ≤ 4 ∧
    3 ∈ varsIn (.call2 .add (.arg (.var 3)) (.call1 .negate (.arg (.word 0x3C00)))) := by decide
theorem witness_NestedCallsRunToTheirValue :
    ∃ s t : State, hostOk s = true ∧ (Expr.call2 .add (.arg (.var 3)) (.call1 .negate (.arg (.word 0x3C00)))).above ≤ 4 ∧
      checkStmts (kindsOf s.vars) (expand (.call2 .add (.arg (.var 3)) (.call1 .negate (.arg (.word 0x3C00)))) 4).1 = none ∧
      evalExpr (.call2 .add (.arg (.var 3)) (.call1 .negate (.arg (.word 0x3C00)))) s = some (.word 0x3C00, t) :=
  ⟨{ State.reset with vars := [(3, .word 0x4000)] }, { State.reset with vars := [(3, .word 0x4000)], resp := some 0x3C00 },
    by decide, by decide, by decide, by decide⟩

end Sys2Proof.Tests
end

section
/-! PROOFS. The architectural state (10_state.md): how the next request runs, what reset leaves, and the frame of every instruction. -/

namespace Sys2Proof.Machine

/-! ### What one step does, by the head of the program -/

theorem fp16Core_of_decode_ok {req : Request} {i : Instr} (h : decode req = .ok i) (s : State) :
    fp16Core req s = exec i s := by
  simp only [fp16Core, h]

theorem step_of_program_nil {s : State} (h : s.program = []) : step s = .fault .noRequest := by
  simp only [step, issueNext, h]

theorem step_of_program_raw {s : State} {req : Request} {rest : List Stmt} (h : s.program = .raw req :: rest) :
    step s = fp16Core req { s with program := rest } := by
  simp only [step, issueNext, h]

/-- Taking the presented request off the program again leaves the state it was presented to. -/
@[simp] theorem step_present (req : Request) (s : State) : step (s.present req) = fp16Core req s :=
  step_of_program_raw (present_program req s)

/-- A number of at most 64 bits is its own request word (log 11). -/
theorem tableRequest_of_lt {w : Nat} (h : w < 2 ^ 64) : tableRequest 64 w = BitVec.ofNat 64 w := by
  rw [tableRequest, Nat.mod_eq_of_lt h]

/-! ### The response port -/

theorem readResponse_of_resp_none {s : State} (h : s.resp = none) : readResponse s = .fault .noResponse := by
  simp only [readResponse, h]

/-! ### The obligations -/

/-- Settles O6: the head raw request goes to `fp16_core`, which runs what it decodes to. -/
theorem stepRunsRawRequest : Obligations.StepRunsRawRequest := by
  intro s req rest i hp hd
  rw [step_of_program_raw hp, fp16Core_of_decode_ok hd]

/-- Settles O7: presenting and issuing cancel, so the word runs at the state itself. -/
theorem presentedWordRunsNext : Obligations.PresentedWordRunsNext := by
  intro s w i hw hd
  rw [State.withFetchWord, tableRequest_of_lt hw, step_present, fp16Core_of_decode_ok hd]

/-- Settles O10: the fields of reset, and the two faults that follow from having no response and no program. -/
theorem resetHasNoResponse : Obligations.ResetHasNoResponse :=
  ⟨rfl, readResponse_of_resp_none rfl, rfl, rfl, step_of_program_nil rfl⟩

/-- Settles O14, from the shape of every answer: only the response and the count of draws differ, the count by at most one. -/
theorem instructionsWriteOnlyTheResponse : Obligations.InstructionsWriteOnlyTheResponse := by
  intro i s t h
  obtain ⟨r, c, hc, hx⟩ := exec_shape i s
  cases hx.symm.trans h
  exact ⟨rfl, rfl, rfl, ⟨r, rfl⟩, Nat.le_add_right _ _, Nat.add_le_add_left hc _⟩

end Sys2Proof.Machine
end

section
/-! PROOFS. Memory (20_memory.md): the block keeps nothing between requests, so a response is a function of its request, the reading of
the rounding step and the draws it takes. -/

namespace Sys2Proof.Machine

/-- The instruction and the reading `rd` fix one result and one function of its word. All that the response takes from the state is the
draw the result may need, at the state's count of draws (20_memory.md R58). -/
theorem exec_resp_of_result (i : Instr) (rd : MulRoundReading) :
    ∃ (r : Result) (f : Word → Response), ∀ s : State, s.mulRound = rd →
      exec i s = .next { s with resp := some (f (r.settle s.draws)), draws := s.draws + r.drawCount } := by
  cases i with
  | fromInt n => exact ⟨fromInt n, (·.setWidth 32), fun _ _ => rfl⟩
  | toInt a => exact ⟨.value a, fun a => BitVec.ofInt 32 (toInt a), fun _ _ => rfl⟩
  | fromIntWithDecimal n k =>
    exact ⟨fromInt n, fun y => (scaleDown rd k y).setWidth 32, by rintro s rfl; rfl⟩
  | negate a => exact ⟨.value (negate a), (·.setWidth 32), fun _ _ => rfl⟩
  | abs a => exact ⟨.value (absWord a), (·.setWidth 32), fun _ _ => rfl⟩
  | reciprocal a => exact ⟨.value (reciprocal rd a), (·.setWidth 32), by rintro s rfl; rfl⟩
  | add a b => exact ⟨add a b, (·.setWidth 32), fun _ _ => rfl⟩
  | subtract a b => exact ⟨subtract a b, (·.setWidth 32), fun _ _ => rfl⟩
  | multiply a b => exact ⟨.value (multiply rd a b), (·.setWidth 32), by rintro s rfl; rfl⟩
  | divide a b => exact ⟨.value (divide rd a b), (·.setWidth 32), by rintro s rfl; rfl⟩

/-- Two counts of draws settle a result alike when they agree, or when the result takes no draw. -/
theorem settle_congr {r : Result} {m n : Nat} (h : m = n ∨ r.drawCount = 0) : r.settle m = r.settle n := by
  cases r with
  | value y => rfl
  | unspecified d =>
    obtain rfl | h := h
    · rfl
    · cases h

/-- Settles O16: both states settle the same result, and the response is the same function of the settled word. -/
theorem responseDependsOnRequestOnly : Obligations.ResponseDependsOnRequestOnly := by
  intro req s s' t hround hrun hdraws
  obtain ⟨i, hd, he⟩ | ⟨why, _, he⟩ := fp16Core_cases req s
  · obtain ⟨r, f, hexec⟩ := exec_resp_of_result i s'.mulRound
    cases (hexec s hround).symm.trans (he.symm.trans hrun)
    have hsettle : r.settle s'.draws = r.settle s.draws :=
      (settle_congr (hdraws.imp_right Nat.add_eq_left.mp)).symm
    exact ⟨_, (fp16Core_of_decode_ok hd s').trans (hexec s' rfl), by rw [hsettle]⟩
  · cases he.symm.trans hrun

end Sys2Proof.Machine
end

section
/-! PROOFS. The encoding of requests (30_encoding.md R77 to R82): a request word is its five fields, so the decoder, the encoder, the masks
and the malformed requests are each a condition on the fields. -/

namespace Sys2Proof

/-! ### A request word as its fields -/

/-- The request word with these fields, every format's payload in its two halves (30_encoding.md R77, R78). -/
def Request.ofFields (op : BitVec 4) (rsv : BitVec 12) (k a b : BitVec 16) : Request :=
  op ++ rsv ++ k ++ (a ++ b)

theorem requestWord_append (op : Mnemonic) (k a b : BitVec 16) :
    requestWord op k (a ++ b) = Request.ofFields op.opcode 0 k a b := rfl

namespace Request

theorem payload_eq_append (req : Request) : payload req = a req ++ b req := by
  apply BitVec.eq_of_toNat_eq
  rw [append_toNat, payload_toNat, a_toNat, b_toNat]
  omega

theorem ofFields_toNat (o : BitVec 4) (r : BitVec 12) (k' a' b' : BitVec 16) :
    (ofFields o r k' a' b').toNat
      = o.toNat * 2 ^ 60 + r.toNat * 2 ^ 48 + k'.toNat * 2 ^ 32 + a'.toNat * 2 ^ 16 + b'.toNat := by
  simp only [ofFields, append_toNat]
  omega

/-- Every request word is the word of its fields. -/
theorem ofFields_self (req : Request) : ofFields (op req) (rsv req) (k req) (a req) (b req) = req := by
  apply BitVec.eq_of_toNat_eq
  rw [ofFields_toNat, op_toNat, rsv_toNat, k_toNat, a_toNat, b_toNat]
  omega

section
variable (o : BitVec 4) (r : BitVec 12) (k' a' b' : BitVec 16)

@[simp] theorem op_ofFields : op (ofFields o r k' a' b') = o := by
  apply BitVec.eq_of_toNat_eq
  rw [op_toNat, ofFields_toNat]
  omega

@[simp] theorem rsv_ofFields : rsv (ofFields o r k' a' b') = r := by
  apply BitVec.eq_of_toNat_eq
  rw [rsv_toNat, ofFields_toNat]
  omega

@[simp] theorem k_ofFields : k (ofFields o r k' a' b') = k' := by
  apply BitVec.eq_of_toNat_eq
  rw [k_toNat, ofFields_toNat]
  omega

@[simp] theorem a_ofFields : a (ofFields o r k' a' b') = a' := by
  apply BitVec.eq_of_toNat_eq
  rw [a_toNat, ofFields_toNat]
  omega

@[simp] theorem b_ofFields : b (ofFields o r k' a' b') = b' := by
  apply BitVec.eq_of_toNat_eq
  rw [b_toNat, ofFields_toNat]
  omega

end

/-- Request words are equal when their fields are. -/
theorem eq_iff_fields {req req' : Request} :
    req = req' ↔ op req = op req' ∧ rsv req = rsv req' ∧ k req = k req' ∧ a req = a req' ∧ b req = b req' := by
  constructor
  · rintro rfl
    exact ⟨rfl, rfl, rfl, rfl, rfl⟩
  · rintro ⟨ho, hr, hk, ha, hb⟩
    rw [← ofFields_self req, ← ofFields_self req', ho, hr, hk, ha, hb]

@[simp] theorem op_and (x y : Request) : op (x &&& y) = op x &&& op y := BitVec.extractLsb'_and
@[simp] theorem rsv_and (x y : Request) : rsv (x &&& y) = rsv x &&& rsv y := BitVec.extractLsb'_and
@[simp] theorem k_and (x y : Request) : k (x &&& y) = k x &&& k y := BitVec.extractLsb'_and
@[simp] theorem a_and (x y : Request) : a (x &&& y) = a x &&& a y := BitVec.extractLsb'_and
@[simp] theorem b_and (x y : Request) : b (x &&& y) = b x &&& b y := BitVec.extractLsb'_and

/-- A mask and a match compare field by field. -/
theorem and_ofFields_eq_iff (req : Request) (o o' : BitVec 4) (r r' : BitVec 12) (k₁ a₁ b₁ k₂ a₂ b₂ : BitVec 16) :
    req &&& ofFields o r k₁ a₁ b₁ = ofFields o' r' k₂ a₂ b₂ ↔
      op req &&& o = o' ∧ rsv req &&& r = r' ∧ k req &&& k₁ = k₂ ∧ a req &&& a₁ = a₂ ∧ b req &&& b₁ = b₂ := by
  rw [eq_iff_fields]
  simp

/-! ### The fields that must be zero, by their masks (30_encoding.md R80) -/

theorem rsv_mask_iff (req : Request) : req &&& 0x0FFF000000000000 = 0 ↔ rsv req = 0 := by
  refine (and_ofFields_eq_iff req 0 0 (BitVec.allOnes 12) 0 0 0 0 0 0 0).trans ?_
  rw [BitVec.and_allOnes]
  simp

theorem k_mask_iff (req : Request) : req &&& 0x0000FFFF00000000 = 0 ↔ k req = 0 := by
  refine (and_ofFields_eq_iff req 0 0 0 0 (BitVec.allOnes 16) 0 0 0 0 0).trans ?_
  rw [BitVec.and_allOnes]
  simp

theorem b_mask_iff (req : Request) : req &&& 0x000000000000FFFF = 0 ↔ b req = 0 := by
  refine (and_ofFields_eq_iff req 0 0 0 0 0 0 (BitVec.allOnes 16) 0 0 0).trans ?_
  rw [BitVec.and_allOnes]
  simp

/-- `OP` is what a right shift by 60 leaves. -/
theorem toNat_shiftRight_op (req : Request) : (req >>> 60).toNat = (op req).toNat := by
  rw [op_toNat, BitVec.toNat_ushiftRight, Nat.shiftRight_eq_div_pow]

end Request

/-! ### The operation codes -/

/-- The operation codes 0x0 to 0x9 are the mnemonics', and no other code has one (30_encoding.md R79). -/
theorem Mnemonic.ofOpcode_eq_some_iff (n : Nat) (op : Mnemonic) : Mnemonic.ofOpcode n = some op ↔ n = op.opcode.toNat := by
  constructor
  · intro h
    unfold Mnemonic.ofOpcode at h
    split at h <;> cases h <;> rfl
  · rintro rfl
    cases op <;> rfl

theorem Mnemonic.ofOpcode_opcode (op : Mnemonic) : Mnemonic.ofOpcode op.opcode.toNat = some op :=
  (Mnemonic.ofOpcode_eq_some_iff _ op).mpr rfl

theorem Mnemonic.opcode_injective : Function.Injective Mnemonic.opcode := by
  intro op op' h
  exact Option.some.inj (op.ofOpcode_opcode.symm.trans (h ▸ op'.ofOpcode_opcode))

/-- A code has a mnemonic exactly where it is below 0xA (30_encoding.md R80). -/
theorem Mnemonic.exists_opcode_iff (o : BitVec 4) : (∃ op : Mnemonic, o = op.opcode) ↔ ¬ 10 ≤ o.toNat := by
  constructor
  · rintro ⟨op, rfl⟩
    cases op <;> decide
  · intro h
    have hlt : o.toNat < 10 := by omega
    obtain ⟨op, hop⟩ : ∃ op, Mnemonic.ofOpcode o.toNat = some op := by
      interval_cases o.toNat <;> exact ⟨_, rfl⟩
    exact ⟨op, BitVec.eq_of_toNat_eq ((Mnemonic.ofOpcode_eq_some_iff _ op).mp hop)⟩

/-! ### The decoder as a condition on the fields -/

@[simp] theorem operandsOf_mnemonic (op : Mnemonic) (req : Request) : (operandsOf op req).mnemonic = op := by
  cases op <;> rfl

/-- What the decoder asks of a request of the operation `op`: its op code, a zero `RSV`, and zero in the fields that its format does not
use (30_encoding.md R78, R82). -/
def Mnemonic.Accepts (op : Mnemonic) (req : Request) : Prop :=
  Request.op req = op.opcode ∧ Request.rsv req = 0 ∧ (op.format ≠ .D → Request.k req = 0) ∧
    (op.format = .U → Request.b req = 0)

theorem decode_eq_ok_iff (req : Request) (i : Instr) :
    decode req = .ok i ↔ ∃ op : Mnemonic, op.Accepts req ∧ i = operandsOf op req := by
  constructor
  · intro h
    unfold decode at h
    split at h
    · cases h
    · next op hop =>
      split_ifs at h with hrsv hk hb
      cases h
      refine ⟨op, ⟨BitVec.eq_of_toNat_eq ((Mnemonic.ofOpcode_eq_some_iff _ op).mp hop), ?_, ?_, ?_⟩, rfl⟩
      · exact not_not.mp hrsv
      · exact fun hf => not_not.mp fun h => hk ⟨hf, h⟩
      · exact fun hf => not_not.mp fun h => hb ⟨hf, h⟩
  · rintro ⟨op, ⟨hop, hrsv, hk, hb⟩, rfl⟩
    have hk' : ¬ (op.format ≠ .D ∧ Request.k req ≠ 0) := fun h => h.2 (hk h.1)
    have hb' : ¬ (op.format = .U ∧ Request.b req ≠ 0) := fun h => h.2 (hb h.1)
    simp only [decode, hop, Mnemonic.ofOpcode_opcode, hrsv, hk', hb', ne_eq, not_true, if_false]

theorem Mnemonic.accepts_iff_decode (op : Mnemonic) (req : Request) :
    op.Accepts req ↔ ∃ i, decode req = .ok i ∧ i.mnemonic = op := by
  constructor
  · exact fun h => ⟨_, (decode_eq_ok_iff _ _).mpr ⟨op, h, rfl⟩, operandsOf_mnemonic op req⟩
  · rintro ⟨i, hd, rfl⟩
    obtain ⟨op, hacc, rfl⟩ := (decode_eq_ok_iff _ _).mp hd
    rwa [operandsOf_mnemonic]

/-- A request answers the op code of one operation at most. -/
theorem Mnemonic.Accepts.unique {op op' : Mnemonic} {req : Request} (h : op.Accepts req) (h' : op'.Accepts req) : op = op' :=
  Mnemonic.opcode_injective (h.1.symm.trans h'.1)

/-- `fp16_core` refuses a request exactly where no operation accepts it. -/
theorem Machine.fp16Core_refused_iff (req : Request) (s : Machine.State) :
    (∃ why, Machine.fp16Core req s = .refused (.reservedEncoding why)) ↔ ¬ ∃ op : Mnemonic, op.Accepts req := by
  obtain ⟨i, hd, he⟩ | ⟨why, hd, he⟩ := Machine.fp16Core_cases req s
  · obtain ⟨r, c, _, hx⟩ := Machine.exec_shape i s
    constructor
    · rintro ⟨why, h⟩
      cases hx.symm.trans (he.symm.trans h)
    · exact fun h => absurd ⟨_, (Mnemonic.accepts_iff_decode _ req).mpr ⟨i, hd, rfl⟩⟩ h
  · refine iff_of_true ⟨why, he⟩ ?_
    rintro ⟨op, hacc⟩
    obtain ⟨i, hi, _⟩ := (op.accepts_iff_decode req).mp hacc
    cases hd.symm.trans hi

/-! ### The encoder -/

theorem intFits_iff (n : Int) : intFits n = true ↔ -2 ^ 31 ≤ n ∧ n < 2 ^ 31 :=
  Bool.and_eq_true_iff.trans (and_congr decide_eq_true_iff decide_eq_true_iff)

theorem countFits_iff (k : Nat) : countFits k = true ↔ k < 2 ^ 16 :=
  decide_eq_true_iff

/-- A number that a 32-bit integer port holds is one that fits (20_memory.md R54). -/
@[simp] theorem intFits_toInt (v : BitVec 32) : intFits v.toInt = true := by
  have := v.isLt
  rw [intFits_iff, BitVec.toInt_eq_toNat_cond]
  split <;> omega

theorem toInt_ofInt_of_intFits {n : Int} (h : intFits n = true) : (BitVec.ofInt 32 n).toInt = n := by
  obtain ⟨hlo, hhi⟩ := (intFits_iff n).mp h
  exact BitVec.toInt_ofInt_eq_self (by decide) hlo hhi

theorem requestWord_payload (op : Mnemonic) (k : BitVec 16) (payload : BitVec 32) :
    Request.payload (requestWord op k payload) = payload := by
  apply BitVec.eq_of_toNat_eq
  rw [payload_toNat, requestWord_toNat]
  omega

theorem requestWord_k (op : Mnemonic) (k : BitVec 16) (payload : BitVec 32) :
    Request.k (requestWord op k payload) = k := by
  apply BitVec.eq_of_toNat_eq
  rw [k_toNat, requestWord_toNat]
  omega

theorem accepts_requestWord (op : Mnemonic) (a b : Word) (hb : op.format = .U → b = 0) :
    op.Accepts (requestWord op 0 (a ++ b)) := by
  rw [requestWord_append]
  exact ⟨Request.op_ofFields _ _ _ _ _, Request.rsv_ofFields _ _ _ _ _, fun _ => Request.k_ofFields _ _ _ _ _,
    fun hU => (Request.b_ofFields _ _ _ _ _).trans (hb hU)⟩

/-- The operation of an instruction accepts its request word. -/
theorem accepts_encode (i : Instr) : i.mnemonic.Accepts (encode i) := by
  cases i with
  | fromInt n => exact ⟨(Laws.RequestHeader.fromInt n).1, (Laws.RequestHeader.fromInt n).2, fun _ => requestWord_k _ _ _, nofun⟩
  | fromIntWithDecimal n k =>
    obtain ⟨hop, hrsv⟩ := Laws.RequestHeader.fromIntWithDecimal n k
    exact ⟨hop, hrsv, fun h => absurd rfl h, nofun⟩
  | add a b | subtract a b | multiply a b | divide a b => exact accepts_requestWord _ a b nofun
  | toInt a | negate a | abs a | reciprocal a => exact accepts_requestWord _ a 0 fun _ => rfl

/-- Each operand is read back from the field it was put in. -/
theorem operandsOf_encode {i : Instr} (h : i.wellFormed = true) : operandsOf i.mnemonic (encode i) = i := by
  cases i with
  | fromInt n => simp only [operandsOf, encode, Instr.mnemonic, requestWord_payload, toInt_ofInt_of_intFits h]
  | fromIntWithDecimal n k =>
    obtain ⟨hn, hk⟩ := Bool.and_eq_true_iff.mp h
    simp only [operandsOf, encode, Instr.mnemonic, requestWord_payload, requestWord_k, toInt_ofInt_of_intFits hn,
      BitVec.toNat_ofNat, Nat.mod_eq_of_lt ((countFits_iff k).mp hk)]
  | _ => simp only [operandsOf, encode, Instr.mnemonic, requestWord_append, Request.a_ofFields, Request.b_ofFields]

theorem decode_encode {i : Instr} (h : i.wellFormed = true) : decode (encode i) = .ok i :=
  (decode_eq_ok_iff _ _).mpr ⟨i.mnemonic, accepts_encode i, (operandsOf_encode h).symm⟩

/-- The integer and the count that a request word holds fit their fields. -/
theorem operandsOf_wellFormed (op : Mnemonic) (req : Request) : (operandsOf op req).wellFormed = true := by
  have hk : countFits (Request.k req).toNat = true := (countFits_iff _).mpr (Request.k req).isLt
  cases op with
  | fromInt => exact intFits_toInt _
  | fromIntWithDecimal => exact Bool.and_eq_true_iff.mpr ⟨intFits_toInt _, hk⟩
  | _ => rfl

/-- A request word that an operation accepts is the one its operands are put in. -/
theorem Mnemonic.Accepts.encode_operandsOf {op : Mnemonic} {req : Request} (h : op.Accepts req) :
    encode (operandsOf op req) = req := by
  obtain ⟨hop, hrsv, hk, hb⟩ := h
  have hreq : requestWord op (Request.k req) (Request.payload req) = req := by
    rw [Request.payload_eq_append, requestWord_append, ← hop, ← hrsv, Request.ofFields_self]
  have hword : op.format ≠ .D → requestWord op 0 (Request.a req ++ Request.b req) = req := by
    rw [← Request.payload_eq_append]
    exact fun hD => hk hD ▸ hreq
  have hword₁ : op.format = .U → requestWord op 0 (Request.a req ++ (0 : Word)) = req := fun hU => by
    simpa only [hb hU] using hword (by rw [hU]; nofun)
  cases op with
  | fromIntWithDecimal => rw [operandsOf, encode, BitVec.ofInt_toInt, BitVec.ofNat_toNat, BitVec.setWidth_eq, hreq]
  | fromInt => rw [operandsOf, encode, BitVec.ofInt_toInt, ← hk nofun, hreq]
  | add | subtract | multiply | divide => exact hword nofun
  | toInt | negate | abs | reciprocal => exact hword₁ rfl

/-! ### The formats by op code (30_encoding.md R79) -/

theorem Mnemonic.format_eq_D_iff (op : Mnemonic) : op.format = .D ↔ op.opcode.toNat = 2 := by
  cases op <;> decide

theorem Mnemonic.format_eq_U_iff (op : Mnemonic) : op.format = .U ↔ op.opcode.toNat ∈ [1, 3, 4, 5] := by
  cases op <;> decide

/-- No operation accepts a request: its op code is reserved, its `RSV` is not zero, or a field that must be zero is not
(30_encoding.md R80). -/
theorem not_accepted_iff (req : Request) :
    (¬ ∃ op : Mnemonic, op.Accepts req) ↔
      10 ≤ (Request.op req).toNat ∨ Request.rsv req ≠ 0 ∨ ((Request.op req).toNat ≠ 2 ∧ Request.k req ≠ 0) ∨
        ((Request.op req).toNat ∈ [1, 3, 4, 5] ∧ Request.b req ≠ 0) := by
  by_cases hres : 10 ≤ (Request.op req).toNat
  · refine iff_of_true ?_ (.inl hres)
    rintro ⟨op, hop, _⟩
    exact (Mnemonic.exists_opcode_iff _).mp ⟨op, hop⟩ hres
  · obtain ⟨op, hop⟩ := (Mnemonic.exists_opcode_iff _).mpr hres
    have hone : (∃ op' : Mnemonic, op'.Accepts req) ↔ op.Accepts req :=
      ⟨fun ⟨op', h⟩ => Mnemonic.opcode_injective (h.1.symm.trans hop) ▸ h, fun h => ⟨op, h⟩⟩
    rw [hone, Mnemonic.Accepts, ne_eq op.format, op.format_eq_D_iff, op.format_eq_U_iff, ← hop]
    tauto

/-! ### Masks (30_encoding.md R82) -/

/-- The mask of a format keeps `OP`, `RSV` and the fields that the format says must be zero. -/
theorem Format.mask_eq_ofFields (f : Format) :
    f.mask = Request.ofFields (BitVec.allOnes 4) (BitVec.allOnes 12) (if f ≠ .D then BitVec.allOnes 16 else 0) 0
      (if f = .U then BitVec.allOnes 16 else 0) := by
  cases f <;> rfl

theorem and_ite_allOnes_eq_zero {n : Nat} (p : Prop) [Decidable p] (x : BitVec n) :
    x &&& (if p then BitVec.allOnes n else 0) = 0 ↔ (p → x = 0) := by
  split_ifs with h <;> simp [h]

theorem Mnemonic.matchBits_eq_ofFields (op : Mnemonic) : op.matchBits = Request.ofFields op.opcode 0 0 0 0 := by
  cases op <;> rfl

/-- To match the row of an operation is to be accepted by it. -/
theorem Mnemonic.masked_eq_iff (op : Mnemonic) (req : Request) : req &&& op.format.mask = op.matchBits ↔ op.Accepts req := by
  rw [Format.mask_eq_ofFields, Mnemonic.matchBits_eq_ofFields, Request.and_ofFields_eq_iff]
  simp only [and_ite_allOnes_eq_zero, BitVec.and_allOnes, Mnemonic.Accepts]
  simp

theorem Mnemonic.selects_iff (op : Mnemonic) (req : Request) : op.selects req = true ↔ op.Accepts req := by
  rw [Mnemonic.selects, beq_iff_eq, op.masked_eq_iff]

/-! ### The obligations -/

/-- Settles O1: the operation of the instruction accepts its request word, and reads back each operand from its field. -/
theorem decodeInvertsEncode : Obligations.DecodeInvertsEncode :=
  fun _ h => decode_encode h

/-- Settles O2: an accepted request word is the word of the operands it holds, which fit their fields. -/
theorem encodeInvertsDecode : Obligations.EncodeInvertsDecode := by
  intro req i h
  obtain ⟨op, hacc, rfl⟩ := (decode_eq_ok_iff req i).mp h
  exact ⟨operandsOf_wellFormed op req, hacc.encode_operandsOf⟩

/-- Settles O3: the ten words, decoded. -/
theorem specRequestWordsDecode : Obligations.SpecRequestWordsDecode :=
  ⟨rfl, rfl, rfl, rfl, rfl, rfl, rfl, rfl, rfl, rfl⟩

/-- Settles O4: a row's mask and match are the decoder's conditions on the fields, and those name one operation. -/
theorem decoderIsMatchAndMask : Obligations.DecoderIsMatchAndMask := by
  refine ⟨fun req op => ?_, fun req op op' h h' => ?_, fun req s h => ?_⟩
  · exact (op.masked_eq_iff req).trans (op.accepts_iff_decode req)
  · exact ((op.selects_iff req).mp h).unique ((op'.selects_iff req).mp h')
  · refine (Machine.fp16Core_refused_iff req s).mpr ?_
    rintro ⟨op, hacc⟩
    exact absurd ((op.selects_iff req).mpr hacc) (by simp [h op])

/-- Settles O5: no operation accepts the request exactly where one of the three masks, or the op code, says so. -/
theorem malformedRequestsAreRefused : Obligations.MalformedRequestsAreRefused := by
  intro req s
  refine ⟨?_, fun why h => by rw [h]; rfl⟩
  rw [Machine.fp16Core_refused_iff, not_accepted_iff, Request.toNat_shiftRight_op, ne_eq, Request.rsv_mask_iff, ne_eq (_ &&& _),
    Request.k_mask_iff, ne_eq (_ &&& _), Request.b_mask_iff]

end Sys2Proof
end

section
/-! PROOFS. The host's statements (30_encoding.md R83): what operands a statement forms its request from, what its step does, and what the
assembler's check buys. -/

namespace Sys2Proof.Machine

/-! ### Operands -/

theorem paramsOf_of_format_I {op : Mnemonic} (h : op.format = .I) : paramsOf op = [.int] := by
  rw [paramsOf, h]

theorem paramsOf_of_format_D {op : Mnemonic} (h : op.format = .D) : paramsOf op = [.int, .scaling] := by
  rw [paramsOf, h]

theorem paramsOf_of_format_U {op : Mnemonic} (h : op.format = .U) : paramsOf op = [.word] := by
  rw [paramsOf, h]

theorem paramsOf_of_format_B {op : Mnemonic} (h : op.format = .B) : paramsOf op = [.word, .word] := by
  rw [paramsOf, h]

/-- Where an operand has a value, it is a literal of its position or a variable that holds a value of the right kind. -/
theorem evalOperand_next_cases {vars : List (Nat × HostValue)} {p : Param} {o : Operand} {x : HostValue}
    (h : evalOperand vars p o = .next x) :
    (∃ w, o = .word w ∧ x = .word w) ∨
    (∃ n, o = .int n ∧ x = .int n ∧ literalFits p n = true) ∨
    (∃ v, o = .var v ∧ readVar v vars = some x ∧ p ≠ .scaling) := by
  cases o with
  | word w =>
    simp only [evalOperand] at h
    split at h <;> cases h
    exact .inl ⟨w, rfl, rfl⟩
  | int n =>
    simp only [evalOperand] at h
    split_ifs at h with _ hfits
    cases h
    exact .inr (.inl ⟨n, rfl, rfl, hfits⟩)
  | var v =>
    simp only [evalOperand] at h
    split_ifs at h with hp
    split at h
    · cases h
    · next hread =>
      split_ifs at h
      cases h
      exact .inr (.inr ⟨v, rfl, hread, hp⟩)

/-- A variable that holds no value faults wherever a variable may stand. -/
theorem evalOperand_unwritten {vars : List (Nat × HostValue)} {p : Param} {v : Nat} (hp : p ≠ .scaling)
    (hv : readVar v vars = none) : evalOperand vars p (.var v) = .fault (.unwrittenVariable v) := by
  simp only [evalOperand, hp, if_false, hv]

/-- A variable that holds a value of the right kind has it as an operand. -/
theorem evalOperand_written {vars : List (Nat × HostValue)} {p : Param} {v : Nat} {x : HostValue} (hp : p ≠ .scaling)
    (hv : readVar v vars = some x) (hk : x.kind = p.kind) : evalOperand vars p (.var v) = .next x := by
  simp only [evalOperand, hp, if_false, hv, hk, if_true]

theorem evalOperand_wordLiteral (vars : List (Nat × HostValue)) (w : Word) : evalOperand vars .word (.word w) = .next (.word w) := rfl

theorem evalOperands_fault_head {vars : List (Nat × HostValue)} {p : Param} {o : Operand} {f : Fault}
    (h : evalOperand vars p o = .fault f) (ps : List Param) (os : List Operand) :
    evalOperands vars (p :: ps) (o :: os) = .fault f := by
  simp only [evalOperands, h]

theorem evalOperands_fault_tail {vars : List (Nat × HostValue)} {p : Param} {o : Operand} {x : HostValue} {ps : List Param}
    {os : List Operand} {f : Fault} (h : evalOperand vars p o = .next x) (hs : evalOperands vars ps os = .fault f) :
    evalOperands vars (p :: ps) (o :: os) = .fault f := by
  simp only [evalOperands, h, hs]

theorem evalOperands_next_cons {vars : List (Nat × HostValue)} {p : Param} {o : Operand} {x : HostValue} {ps : List Param}
    {os : List Operand} {xs : List HostValue} (h : evalOperand vars p o = .next x) (hs : evalOperands vars ps os = .next xs) :
    evalOperands vars (p :: ps) (o :: os) = .next (x :: xs) := by
  simp only [evalOperands, h, hs]

theorem evalOperands_cons_next {vars : List (Nat × HostValue)} {p : Param} {o : Operand} {ps : List Param} {os : List Operand}
    {xs : List HostValue} (h : evalOperands vars (p :: ps) (o :: os) = .next xs) :
    ∃ y ys, evalOperand vars p o = .next y ∧ evalOperands vars ps os = .next ys ∧ xs = y :: ys := by
  rw [evalOperands] at h
  split at h
  · split at h
    · cases h
      exact ⟨_, _, ‹_›, ‹_›, rfl⟩
    · cases h
    · cases h
  · cases h
  · cases h

/-- The values of a statement's operands are the values of its operands, one for each position. -/
theorem evalOperands_next_forall₂ {vars : List (Nat × HostValue)} {ps : List Param} {os : List Operand} {xs : List HostValue}
    (h : evalOperands vars ps os = .next xs) : List.Forall₂ (fun p x => ∃ o, evalOperand vars p o = .next x) ps xs := by
  induction ps generalizing os xs with
  | nil =>
    cases os <;> cases h
    exact .nil
  | cons p ps ih =>
    cases os with
    | nil => cases h
    | cons o os =>
      obtain ⟨y, ys, hy, hys, rfl⟩ := evalOperands_cons_next h
      exact .cons ⟨o, hy⟩ (ih hys)

/-! ### From values to an instruction -/

theorem HostValue.eq_word_of_kind {x : HostValue} (h : x.kind = .word) : ∃ w, x = .word w := by
  cases x with
  | word w => exact ⟨w, rfl⟩
  | int n => cases h

theorem HostValue.eq_int_of_kind {x : HostValue} (h : x.kind = .int) : ∃ n, x = .int n := by
  cases x with
  | word w => cases h
  | int n => exact ⟨n, rfl⟩

/-- A value that a parameter's position takes: of its kind, and an integer in its range (30_encoding.md R83). -/
def Param.Admits (p : Param) (x : HostValue) : Prop :=
  x.kind = p.kind ∧ ∀ n, x = .int n → literalFits p n = true

/-- Values of the kinds that a mnemonic's positions ask for make an instruction of that mnemonic. -/
theorem instrOf_of_kinds {op : Mnemonic} {xs : List HostValue}
    (h : List.Forall₂ (fun p x => HostValue.kind x = Param.kind p) (paramsOf op) xs) :
    ∃ i, instrOf op xs = some i ∧ i.mnemonic = op := by
  cases op with
  | fromInt =>
    obtain _ | ⟨hx, _ | _⟩ := h
    obtain ⟨n, rfl⟩ := HostValue.eq_int_of_kind hx
    exact ⟨_, rfl, rfl⟩
  | fromIntWithDecimal =>
    obtain _ | ⟨hx, _ | ⟨hy, _ | _⟩⟩ := h
    obtain ⟨n, rfl⟩ := HostValue.eq_int_of_kind hx
    obtain ⟨k, rfl⟩ := HostValue.eq_int_of_kind hy
    exact ⟨_, rfl, rfl⟩
  | toInt | negate | abs | reciprocal =>
    obtain _ | ⟨hx, _ | _⟩ := h
    obtain ⟨a, rfl⟩ := HostValue.eq_word_of_kind hx
    exact ⟨_, rfl, rfl⟩
  | add | subtract | multiply | divide =>
    obtain _ | ⟨hx, _ | ⟨hy, _ | _⟩⟩ := h
    obtain ⟨a, rfl⟩ := HostValue.eq_word_of_kind hx
    obtain ⟨b, rfl⟩ := HostValue.eq_word_of_kind hy
    exact ⟨_, rfl, rfl⟩

/-- Values that a mnemonic's positions take make a well-formed instruction. -/
theorem instrOf_wellFormed {op : Mnemonic} {xs : List HostValue} {i : Instr} (h : List.Forall₂ Param.Admits (paramsOf op) xs)
    (hi : instrOf op xs = some i) : i.wellFormed = true := by
  obtain ⟨j, hj, hop⟩ := instrOf_of_kinds (h.imp fun _ _ hx => hx.1)
  cases hi.symm.trans hj
  subst hop
  cases i with
  | fromInt n =>
    obtain _ | ⟨⟨hk, hn⟩, _ | _⟩ := h
    obtain ⟨n, rfl⟩ := HostValue.eq_int_of_kind hk
    cases hi
    exact hn n rfl
  | fromIntWithDecimal n k =>
    obtain _ | ⟨⟨hkn, hn⟩, _ | ⟨⟨hkk, hk⟩, _ | _⟩⟩ := h
    obtain ⟨n, rfl⟩ := HostValue.eq_int_of_kind hkn
    obtain ⟨k, rfl⟩ := HostValue.eq_int_of_kind hkk
    cases hi
    exact Bool.and_eq_true_iff.mpr ⟨hn n rfl, (Bool.and_eq_true_iff.mp (hk k rfl)).2⟩
  | _ => rfl

/-! ### The host in order -/

theorem hostOk_iff (s : State) : hostOk s = true ↔ varsWf s.vars = true ∧ ∀ p ∈ s.vars, p.2.inRange = true := by
  rw [hostOk, Bool.and_eq_true, List.all_eq_true]

theorem mem_of_readVar {v : Nat} {x : HostValue} {vars : List (Nat × HostValue)} (h : readVar v vars = some x) : (v, x) ∈ vars := by
  induction vars with
  | nil => cases h
  | cons p rest ih =>
    obtain ⟨u, y⟩ := p
    simp only [readVar] at h
    split at h
    · next huv =>
      cases h
      exact huv ▸ List.mem_cons_self
    · exact List.mem_cons_of_mem _ (ih h)

/-- Where the host is in order, an operand's value is one that its position takes. -/
theorem admits_of_evalOperand {s : State} (hs : hostOk s = true) {p : Param} {o : Operand} {x : HostValue}
    (h : evalOperand s.vars p o = .next x) : p.Admits x := by
  refine ⟨evalOperand_next_kind h, ?_⟩
  rintro n rfl
  obtain ⟨w, _, hx⟩ | ⟨m, _, hx, hfits⟩ | ⟨v, _, hread, hp⟩ := evalOperand_next_cases h
  · cases hx
  · cases hx
    exact hfits
  · have hn : intFits n = true := ((hostOk_iff s).mp hs).2 _ (mem_of_readVar hread)
    cases p with
    | scaling => exact absurd rfl hp
    | word | int => exact hn

/-- Where the host is in order, a statement's operand values make a well-formed instruction. -/
theorem instrOf_evalOperands_wellFormed {s : State} (hs : hostOk s = true) {op : Mnemonic} {args : List Operand}
    {xs : List HostValue} {i : Instr} (h : evalOperands s.vars (paramsOf op) args = .next xs) (hi : instrOf op xs = some i) :
    i.wellFormed = true :=
  instrOf_wellFormed ((evalOperands_next_forall₂ h).imp fun _ _ ⟨_, ho⟩ => admits_of_evalOperand hs ho) hi

theorem instrOf_evalOperands {vars : List (Nat × HostValue)} {op : Mnemonic} {args : List Operand} {xs : List HostValue}
    (h : evalOperands vars (paramsOf op) args = .next xs) : ∃ i, instrOf op xs = some i ∧ i.mnemonic = op :=
  instrOf_of_kinds ((evalOperands_next_forall₂ h).imp fun _ _ ⟨_, ho⟩ => evalOperand_next_kind ho)

/-- A response is kept as a value in range. -/
theorem valueOfResponse_inRange (op : Mnemonic) (r : Response) : (valueOfResponse op r).inRange = true := by
  unfold valueOfResponse
  split
  · exact intFits_toInt r
  · rfl

/-! ### The step of a statement -/

section
variable {s : State} {dst : Nat} {op : Mnemonic} {args : List Operand} {rest : List Stmt}

/-- A statement whose operands fault faults, and sends no request. -/
theorem step_call_fault {f : Fault} (hp : s.program = .call dst op args :: rest)
    (he : evalOperands s.vars (paramsOf op) args = .fault f) : step s = .fault f := by
  simp only [step, issueNext, hp, requestOf, he]

/-- A statement whose operands make a well-formed instruction runs it and keeps the response. -/
theorem step_call_next {xs : List HostValue} {i : Instr} {t : State} {r : Response}
    (hp : s.program = .call dst op args :: rest) (he : evalOperands s.vars (paramsOf op) args = .next xs)
    (hi : instrOf op xs = some i) (hwf : i.wellFormed = true) (hx : exec i { s with program := rest } = .next t)
    (hr : t.resp = some r) : step s = .next { t with vars := writeVar dst (valueOfResponse op r) t.vars } := by
  have hcore := (fp16Core_of_decode_ok (decode_encode hwf) { s with program := rest }).trans hx
  simp only [step, issueNext, hp, requestOf, he, hi, hcore, storeResponse, readResponse, hr]

/-- Where the host is in order, a statement whose operands have values goes on to a next state. -/
theorem step_call_completes (hs : hostOk s = true) {xs : List HostValue} (hp : s.program = .call dst op args :: rest)
    (he : evalOperands s.vars (paramsOf op) args = .next xs) : ∃ t, step s = .next t := by
  obtain ⟨i, hi, _⟩ := instrOf_evalOperands he
  obtain ⟨r, c, _, hx⟩ := exec_shape i { s with program := rest }
  exact ⟨_, step_call_next hp he hi (instrOf_evalOperands_wellFormed hs he hi) hx rfl⟩

end

/-- What a step that goes on leaves of the host's side: the rest of the program, and the variables with at most the statement's own
written. -/
theorem step_next_host {s t : State} (h : step s = .next t) :
    (∃ req, s.program = .raw req :: t.program ∧ t.vars = s.vars) ∨
    (∃ dst op args r, s.program = .call dst op args :: t.program ∧ t.resp = some r ∧
      t.vars = writeVar dst (valueOfResponse op r) s.vars) := by
  obtain ⟨req, rest, i, hp, _, hx⟩ | ⟨dst, op, args, rest, _, i, u, r, hp, _, _, hx, hr, rfl⟩ := step_next_cases h
  · obtain ⟨_, _, _, hx'⟩ := exec_shape i { s with program := rest }
    cases hx'.symm.trans hx
    exact .inl ⟨req, hp, rfl⟩
  · obtain ⟨_, _, _, hx'⟩ := exec_shape i { s with program := rest }
    cases hx'.symm.trans hx
    exact .inr ⟨dst, op, args, r, hp, hr, rfl⟩

/-- A step keeps the variables, or writes one of them with a response in range: the host stays in order. -/
theorem step_keeps_hostOk {s t : State} (hs : hostOk s = true) (h : step s = .next t) : hostOk t = true := by
  obtain ⟨hwf, hrange⟩ := (hostOk_iff s).mp hs
  rw [hostOk_iff]
  obtain ⟨_, _, hvars⟩ | ⟨dst, op, _, r, _, _, hvars⟩ := step_next_host h
  · rw [hvars]
    exact ⟨hwf, hrange⟩
  · rw [hvars]
    refine ⟨varsWf_writeVar dst _ hwf, fun p hp => ?_⟩
    obtain rfl | hp := mem_writeVar hp
    · exact valueOfResponse_inRange op r
    · exact hrange p hp

/-! ### What the assembler's check buys -/

/-- An operand that passes the check has a value, or is a variable that holds none. -/
theorem evalOperand_of_check {vars : List (Nat × HostValue)} {p : Param} {o : Operand}
    (h : checkOperand (kindsOf vars) p o = none) :
    (∃ x, evalOperand vars p o = .next x) ∨
    (∃ v, o = .var v ∧ readVar v vars = none ∧ evalOperand vars p o = .fault (.unwrittenVariable v)) := by
  cases o with
  | word w =>
    simp only [checkOperand] at h
    split_ifs at h with hp
    exact .inl ⟨.word w, by rw [hp]; rfl⟩
  | int n =>
    simp only [checkOperand] at h
    split_ifs at h with hp hfits
    exact .inl ⟨.int n, by simp only [evalOperand, hp, hfits, if_false, if_true]⟩
  | var v =>
    simp only [checkOperand, lookup_kindsOf] at h
    split_ifs at h with hp
    cases hread : readVar v vars with
    | none => exact .inr ⟨v, rfl, hread, evalOperand_unwritten hp hread⟩
    | some x =>
      simp only [hread, Option.map_some] at h
      split_ifs at h with hk
      exact .inl ⟨x, evalOperand_written hp hread hk⟩

/-- Operands that pass the check have values, or one of them is a variable that holds none. -/
theorem evalOperands_of_check {vars : List (Nat × HostValue)} {ps : List Param} {os : List Operand}
    (h : checkOperands (kindsOf vars) ps os = none) :
    (∃ xs, evalOperands vars ps os = .next xs) ∨
    (∃ v, .var v ∈ os ∧ readVar v vars = none ∧ evalOperands vars ps os = .fault (.unwrittenVariable v)) := by
  induction ps generalizing os with
  | nil =>
    cases os with
    | nil => exact .inl ⟨[], rfl⟩
    | cons o os => cases h
  | cons p ps ih =>
    cases os with
    | nil => cases h
    | cons o os =>
      obtain ⟨ho, hos⟩ := Option.or_eq_none_iff.mp h
      obtain ⟨x, hx⟩ | ⟨v, rfl, hv, hf⟩ := evalOperand_of_check ho
      · obtain ⟨xs, hxs⟩ | ⟨v, hmem, hv, hf⟩ := ih hos
        · exact .inl ⟨x :: xs, evalOperands_next_cons hx hxs⟩
        · exact .inr ⟨v, List.mem_cons_of_mem _ hmem, hv, evalOperands_fault_tail hx hf⟩
      · exact .inr ⟨v, List.mem_cons_self, hv, evalOperands_fault_head hf ps os⟩

theorem checkStmts_call_iff {kinds : List (Nat × Kind)} {dst : Nat} {op : Mnemonic} {args : List Operand} {rest : List Stmt} :
    checkStmts kinds (.call dst op args :: rest) = none ↔
      checkOperands kinds (paramsOf op) args = none ∧ checkStmts ((dst, resultKind op) :: kinds) rest = none :=
  Option.or_eq_none_iff

theorem checkOperands_congr {kinds kinds' : List (Nat × Kind)} (h : ∀ v, kinds.lookup v = kinds'.lookup v) (ps : List Param)
    (os : List Operand) : checkOperands kinds ps os = checkOperands kinds' ps os := by
  have hoperand (p : Param) (o : Operand) : checkOperand kinds p o = checkOperand kinds' p o := by
    cases o <;> simp only [checkOperand, h]
  induction ps generalizing os with
  | nil => cases os <;> rfl
  | cons p ps ih => cases os <;> simp only [checkOperands, hoperand, ih]

/-- The check reads the kinds by variable only. -/
theorem checkStmts_congr {kinds kinds' : List (Nat × Kind)} (h : ∀ v, kinds.lookup v = kinds'.lookup v) (p : List Stmt) :
    checkStmts kinds p = checkStmts kinds' p := by
  induction p generalizing kinds kinds' with
  | nil => rfl
  | cons st rest ih =>
    cases st with
    | raw req => exact ih h
    | call dst op args =>
      have h' (v : Nat) : ((dst, resultKind op) :: kinds).lookup v = ((dst, resultKind op) :: kinds').lookup v := by
        rw [List.lookup_cons, List.lookup_cons, h]
      rw [checkStmts, checkStmts, checkOperands_congr h, ih h']

/-- The kinds the assembler counts on after a statement are the kinds the variables have once it ran. -/
theorem checkStmts_writeVar (dst : Nat) (x : HostValue) (vars : List (Nat × HostValue)) (p : List Stmt) :
    checkStmts (kindsOf (writeVar dst x vars)) p = checkStmts ((dst, x.kind) :: kindsOf vars) p := by
  refine checkStmts_congr (fun v => ?_) p
  rw [lookup_kindsOf, List.lookup_cons, lookup_kindsOf]
  by_cases hv : v = dst
  · subst hv
    simp
  · rw [readVar_writeVar_other hv, beq_false_of_ne hv]

theorem wellKinded_iff (s : State) : wellKinded s = true ↔ checkStmts (kindsOf s.vars) s.program = none :=
  Option.isNone_iff_eq_none

theorem step_keeps_wellKinded {s t : State} (hs : wellKinded s = true) (h : step s = .next t) : wellKinded t = true := by
  rw [wellKinded_iff] at hs ⊢
  obtain ⟨req, hp, hvars⟩ | ⟨dst, op, args, r, hp, _, hvars⟩ := step_next_host h
  · rw [hp] at hs
    rwa [hvars]
  · rw [hp, checkStmts_call_iff] at hs
    rw [hvars, checkStmts_writeVar, valueOfResponse_kind]
    exact hs.2

/-- A step of an assembled program goes on in order with one statement fewer, or stops at the end, at an unwritten variable or at a malformed
raw request. -/
theorem step_of_wellKinded {s : State} (hs : hostOk s = true) (hk : wellKinded s = true) :
    (∃ t st, step s = .next t ∧ hostOk t = true ∧ wellKinded t = true ∧ s.program = st :: t.program) ∨
    (s.program = [] ∧ step s = .fault .noRequest) ∨
    (∃ v dst op args rest, s.program = .call dst op args :: rest ∧ .var v ∈ args ∧ readVar v s.vars = none ∧
      step s = .fault (.unwrittenVariable v)) ∨
    (∃ req rest why, s.program = .raw req :: rest ∧ step s = .refused (.reservedEncoding why)) := by
  have hnext {t : State} (h : step s = .next t) :
      ∃ t st, step s = .next t ∧ hostOk t = true ∧ wellKinded t = true ∧ s.program = st :: t.program := by
    obtain ⟨_, hp, _⟩ | ⟨_, _, _, _, hp, _⟩ := step_next_host h <;>
      exact ⟨t, _, h, step_keeps_hostOk hs h, step_keeps_wellKinded hk h, hp⟩
  cases hp : s.program with
  | nil => exact .inr (.inl ⟨rfl, step_of_program_nil hp⟩)
  | cons st rest =>
    rw [← hp]
    cases st with
    | raw req =>
      have hstep := step_of_program_raw hp
      obtain ⟨i, _, he⟩ | ⟨why, _, he⟩ := fp16Core_cases req { s with program := rest }
      · obtain ⟨r, c, _, hx⟩ := exec_shape i { s with program := rest }
        exact .inl (hnext (hstep.trans (he.trans hx)))
      · exact .inr (.inr (.inr ⟨req, rest, why, hp, hstep.trans he⟩))
    | call dst op args =>
      rw [wellKinded_iff, hp, checkStmts_call_iff] at hk
      obtain ⟨xs, he⟩ | ⟨v, hmem, hv, he⟩ := evalOperands_of_check hk.1
      · obtain ⟨t, ht⟩ := step_call_completes hs hp he
        exact .inl (hnext ht)
      · exact .inr (.inr (.inl ⟨v, dst, op, args, rest, hp, hmem, hv, step_call_fault hp he⟩))

/-! ### Runs -/

theorem runSteps_succ_of_next {s t : State} (h : step s = .next t) (k : Nat) : runSteps (k + 1) s = runSteps k t := by
  simp only [runSteps, h]

theorem runSteps_succ_of_fault {s : State} {f : Fault} (h : step s = .fault f) (k : Nat) : runSteps (k + 1) s = .fault f := by
  simp only [runSteps, h]

/-- The run of a program is a step of its first statement, then the run of what is left. -/
theorem runProgram_of_step_next {s t : State} {st : Stmt} (hp : s.program = st :: t.program) (h : step s = .next t) :
    runProgram s = runProgram t := by
  rw [runProgram, hp, List.length_cons, runSteps_succ_of_next h, runProgram]

theorem runProgram_of_step_fault {s : State} {st : Stmt} {rest : List Stmt} {f : Fault} (hp : s.program = st :: rest)
    (h : step s = .fault f) : runProgram s = .fault f := by
  rw [runProgram, hp, List.length_cons, runSteps_succ_of_fault h]

theorem runProgram_of_nil {s : State} (h : s.program = []) : runProgram s = .next s := by
  rw [runProgram, h, List.length_nil, runSteps]

/-- What loading leaves passes the assembler's check, with no variable written. -/
theorem load_next {lines : List SourceLine} {s t : State} (h : s.load lines = .next t) :
    t.vars = [] ∧ checkStmts [] t.program = none := by
  unfold State.load at h
  split at h <;> cases h
  next stmts ha =>
  unfold assemble at ha
  split at ha
  · cases ha
  · split at ha <;> cases ha
    exact ⟨rfl, ‹_›⟩

/-- An assembled program without raw requests runs to its end or faults at an unwritten variable. -/
theorem runProgram_of_wellKinded {s : State} (hs : hostOk s = true) (hk : wellKinded s = true) (hraw : noRaw s.program = true) :
    (∃ u, runProgram s = .next u ∧ u.program = []) ∨ (∃ v, runProgram s = .fault (.unwrittenVariable v)) := by
  induction hp : s.program generalizing s with
  | nil => exact .inl ⟨s, runProgram_of_nil hp, hp⟩
  | cons st rest ih =>
    obtain ⟨t, st', ht, hst, hkt, hpt⟩ | ⟨hnil, _⟩ | ⟨v, _, _, _, _, _, _, _, hf⟩ | ⟨req, rest', _, hreq, _⟩ :=
      step_of_wellKinded hs hk
    · obtain ⟨rfl, rfl⟩ := List.cons.inj (hp.symm.trans hpt)
      rw [hp] at hraw
      rw [runProgram_of_step_next hpt ht]
      exact ih hst hkt (Bool.and_eq_true_iff.mp hraw).2 rfl
    · cases hp.symm.trans hnil
    · exact .inr ⟨v, runProgram_of_step_fault hp hf⟩
    · rw [hreq] at hraw
      cases hraw

/-! ### The obligations -/

/-- Settles O48: a step keeps the variables or writes one of them, with a response in range. -/
theorem stepKeepsHostInOrder : Obligations.StepKeepsHostInOrder :=
  fun _ _ => step_keeps_hostOk

/-- Settles O50, from the two invariants of a step and what passing the check says of each operand. -/
theorem assembledStepsAreSound : Obligations.AssembledStepsAreSound := by
  intro s hs hk
  refine (step_of_wellKinded hs hk).imp_left ?_
  rintro ⟨t, st, ht, hhost, hkind, hp⟩
  exact ⟨t, ht, hhost, hkind, by rw [hp, List.length_cons]⟩

/-- Settles O8: operand values make an instruction, whose request word decodes back to it and runs. -/
theorem stepRunsStatement : Obligations.StepRunsStatement := by
  intro s dst op args rest xs hp he
  obtain ⟨i, hi, hop⟩ := instrOf_evalOperands he
  refine ⟨i, hi, hop, fun hs => instrOf_evalOperands_wellFormed hs he hi, fun hwf => ?_⟩
  obtain ⟨r, c, _, hx⟩ := exec_shape i { s with program := rest }
  exact ⟨_, r, hx, rfl, step_call_next hp he hi hwf hx rfl⟩

/-- Settles O12: the step writes the statement's variable over the variables as they were. -/
theorem statementWritesOneVariable : Obligations.StatementWritesOneVariable := by
  intro s t dst op args rest hp h
  obtain ⟨_, hp', _⟩ | ⟨dst', op', args', r, hp', hr, hvars⟩ := step_next_host h
  · cases hp.symm.trans hp'
  · cases hp.symm.trans hp'
    rw [hvars]
    exact ⟨⟨r, hr, readVar_writeVar_same dst _ s.vars⟩, fun v hv => readVar_writeVar_other hv _ s.vars, rfl⟩

/-- Settles O51: what is loaded is in order and passes the check, and every step keeps that. -/
theorem assembledProgramsAreNeverRefused : Obligations.AssembledProgramsAreNeverRefused := by
  intro lines s t hload hraw
  obtain ⟨hvars, hcheck⟩ := load_next hload
  refine runProgram_of_wellKinded ?_ ?_ hraw
  · rw [hostOk, hvars]
    rfl
  · rw [wellKinded_iff, hvars]
    exact hcheck

/-- Settles O9: the operands before the unwritten variable have values, so the fault is its own. -/
theorem unwrittenVariableFaults : Obligations.UnwrittenVariableFaults := by
  intro s dst v op rest hv
  have hword : evalOperand s.vars .word (.var v) = .fault (.unwrittenVariable v) := evalOperand_unwritten nofun hv
  have hint : evalOperand s.vars .int (.var v) = .fault (.unwrittenVariable v) := evalOperand_unwritten nofun hv
  refine ⟨fun hf hp => step_call_fault hp ?_, fun o hf hp => step_call_fault hp ?_, fun o a ho hf hp => step_call_fault hp ?_,
    fun o hf hp => step_call_fault hp ?_⟩
  · obtain hf | hf := hf
    · rw [paramsOf_of_format_U hf]
      exact evalOperands_fault_head hword _ _
    · rw [paramsOf_of_format_I hf]
      exact evalOperands_fault_head hint _ _
  · rw [paramsOf_of_format_B hf]
    exact evalOperands_fault_head hword _ _
  · have hfirst : evalOperand s.vars .word o = .next (.word a) := by
      obtain rfl | ⟨u, rfl, hu⟩ := ho
      · exact evalOperand_wordLiteral s.vars a
      · exact evalOperand_written nofun hu rfl
    rw [paramsOf_of_format_B hf]
    exact evalOperands_fault_tail hfirst (evalOperands_fault_head hword _ _)
  · rw [paramsOf_of_format_D hf]
    exact evalOperands_fault_head hint _ _

end Sys2Proof.Machine
end

section
/-! PROOFS. Words as numbers (30_encoding.md R72, R76): the class and the value of a word, and that the raw order is the order of the
magnitudes. -/

namespace Sys2Proof.Machine

/-! ### The fields as quotients and remainders -/

theorem E_eq_expOf (x : Word) : E x = expOf x := E_eq x
theorem M_eq_manOf (x : Word) : M x = manOf x := M_eq x
theorem S_eq_isNeg (x : Word) : S x = isNeg x := S_eq x

theorem natAbs_signOf (x : Word) : (signOf x).natAbs = 1 := by
  unfold signOf
  split <;> rfl

/-- The raw magnitude is the exponent and the mantissa side by side. -/
theorem rawMagnitude_eq (x : Word) : rawMagnitude x = E x * 1024 + M x := by
  have hmod : rawMagnitude x = x.toNat % 2 ^ 15 := by
    rw [rawMagnitude, BitVec.toNat_and]
    exact Nat.and_two_pow_sub_one_eq_mod x.toNat 15
  rw [hmod, E_eq, M_eq]
  omega

/-! ### Class and value (30_encoding.md R72) -/

section
variable {x : Word}

theorem classOf_zero (hE : E x = 0) (hM : M x = 0) : classOf x = .zero := by
  simp only [classOf, hE, hM, if_true]

theorem classOf_exp0 (hE : E x = 0) (hM : M x ≠ 0) : classOf x = .exp0 := by
  simp only [classOf, hE, hM, if_true, if_false]

theorem classOf_normal (hE : E x ≠ 0) (hE' : E x ≠ 31) : classOf x = .normal := by
  simp only [classOf, hE, hE', Config.expInf, if_false]

theorem classOf_inf (hE : E x = 31) : classOf x = .inf := by
  simp only [classOf, hE, Config.expInf, if_true]
  rfl

theorem valueOf_zero (hE : E x = 0) (hM : M x = 0) : valueOf x = .zero (S x) := by
  simp only [valueOf, classOf_zero hE hM]

theorem valueOf_inf (hE : E x = 31) : valueOf x = .inf (S x) := by
  simp only [valueOf, classOf_inf hE]

/-- EXP0 and NORMAL words have their value by one formula. -/
theorem valueOf_finite (hzero : ¬ (E x = 0 ∧ M x = 0)) (hinf : E x ≠ 31) :
    valueOf x = .finite (signOf x * ((1024 + M x) * 2 ^ E x : Nat)) := by
  by_cases hE : E x = 0
  · simp only [valueOf, classOf_exp0 hE fun hM => hzero ⟨hE, hM⟩]
  · simp only [valueOf, classOf_normal hE hinf]

end

/-! ### Raw order (30_encoding.md R76) -/

/-- The magnitude of a finite value, in units of 2^−25, as a function of the 15 raw bits. -/
def unitsOfRaw (n : Nat) : Nat := if n = 0 then 0 else (1024 + n % 1024) * 2 ^ (n / 1024)

/-- The next raw magnitude is a mantissa above, or the next exponent with a mantissa of zero; both are more. -/
theorem unitsOfRaw_strictMono : StrictMono unitsOfRaw := by
  refine strictMono_nat_of_lt_succ fun n => ?_
  have hpow : 0 < 2 ^ (n / 1024) := Nat.two_pow_pos _
  rw [unitsOfRaw, unitsOfRaw, if_neg n.succ_ne_zero]
  split_ifs with hn
  · positivity
  · by_cases hlast : n % 1024 = 1023
    · have hq : (n + 1) / 1024 = n / 1024 + 1 := by omega
      have hr : (n + 1) % 1024 = 0 := by omega
      rw [hq, hr, hlast, Nat.pow_succ]
      omega
    · have hq : (n + 1) / 1024 = n / 1024 := by omega
      have hr : (n + 1) % 1024 = n % 1024 + 1 := by omega
      rw [hq, hr]
      exact Nat.mul_lt_mul_of_pos_right (by omega) hpow

/-- A word stands for a number exactly where it is no infinity. -/
theorem scaledValue_eq_none_iff (x : Word) : scaledValue x = none ↔ E x = 31 := by
  by_cases hinf : E x = 31
  · exact iff_of_true (by rw [scaledValue, valueOf_inf hinf, units_inf]) hinf
  · refine iff_of_false ?_ hinf
    by_cases hzero : E x = 0 ∧ M x = 0
    · rw [scaledValue, valueOf_zero hzero.1 hzero.2]
      nofun
    · rw [scaledValue, valueOf_finite hzero hinf]
      nofun

theorem E_ne_of_scaledValue {x : Word} {v : Int} (h : scaledValue x = some v) : E x ≠ 31 := fun hE => by
  rw [(scaledValue_eq_none_iff x).mpr hE] at h
  cases h

/-- The magnitude of a word's value is a function of its raw magnitude. -/
theorem natAbs_of_scaledValue {x : Word} {v : Int} (h : scaledValue x = some v) : v.natAbs = unitsOfRaw (rawMagnitude x) := by
  have hM := M_le x
  have hinf := E_ne_of_scaledValue h
  by_cases hzero : E x = 0 ∧ M x = 0
  · rw [scaledValue, valueOf_zero hzero.1 hzero.2] at h
    cases h
    rw [rawMagnitude_eq, hzero.1, hzero.2]
    rfl
  · rw [scaledValue, valueOf_finite hzero hinf] at h
    cases h
    have hq : (E x * 1024 + M x) / 1024 = E x := by omega
    have hr : (E x * 1024 + M x) % 1024 = M x := by omega
    rw [rawMagnitude_eq, unitsOfRaw, if_neg (by omega), hq, hr, Int.natAbs_mul, natAbs_signOf, Int.natAbs_natCast, Nat.one_mul]

/-! ### The obligations -/

/-- Settles O46, class by class. -/
theorem wordsHaveClassAndValue : Obligations.WordsHaveClassAndValue := by
  intro x
  rw [← E_eq_expOf, ← M_eq_manOf, ← S_eq_isNeg]
  have hfinite (h : ¬ (E x = 0 ∧ M x = 0)) (hE : E x ≠ 31) :
      valueOf x = .finite ((if S x then -1 else 1) * (1024 + M x) * 2 ^ E x) := by
    rw [valueOf_finite h hE, signOf]
    push_cast
    rw [mul_assoc]
  refine ⟨fun hE hM => ⟨classOf_zero hE hM, valueOf_zero hE hM⟩, fun hE hM => ⟨classOf_exp0 hE hM, ?_⟩,
    fun h1 h30 => ⟨classOf_normal (by omega) (by omega), hfinite (by omega) (by omega)⟩,
    fun hE => ⟨classOf_inf hE, valueOf_inf hE⟩⟩
  rw [hfinite (by omega) (by omega), hE, pow_zero, mul_one]

/-- Settles O47: magnitudes are a strictly rising function of the raw bits, and an infinity's exponent is above every finite one. -/
theorem rawOrderIsValueOrder : Obligations.RawOrderIsValueOrder := by
  intro x y v w _ hx hy
  refine ⟨?_, fun z hz => ?_⟩
  · rw [natAbs_of_scaledValue hx, natAbs_of_scaledValue hy]
    exact unitsOfRaw_strictMono.lt_iff_lt.symm
  · change rawMagnitude x < rawMagnitude z
    have hfin := E_ne_of_scaledValue hx
    have hEx := E_le x
    have hMx := M_le x
    rw [rawMagnitude_eq, rawMagnitude_eq, (scaledValue_eq_none_iff z).mp hz]
    omega

end Sys2Proof.Machine
end

section
/-! PROOFS. Compositions (30_encoding.md R84): a program may write subtract and divide as two statements. -/

namespace Sys2Proof.Machine

/-- A word that a response delivers is the word a statement keeps. -/
theorem valueOfResponse_word {op : Mnemonic} (h : op ≠ .toInt) (y : Word) : valueOfResponse op (y.setWidth 32) = .word y := by
  rw [valueOfResponse, if_neg h, BitVec.setWidth_setWidth_of_le _ (by decide), BitVec.setWidth_eq]

/-- Two words are the operands of format B only, and no word is out of its field. -/
theorem instrOf_two_words {op : Mnemonic} {a b : Word} {i : Instr} (h : instrOf op [.word a, .word b] = some i) :
    op.format = .B ∧ i.wellFormed = true := by
  cases op <;> cases h <;> exact ⟨rfl, rfl⟩

/-- One word is the operand of format U only, and no word is out of its field. -/
theorem instrOf_one_word {op : Mnemonic} {a : Word} {i : Instr} (h : instrOf op [.word a] = some i) :
    op.format = .U ∧ i.wellFormed = true := by
  cases op <;> cases h <;> exact ⟨rfl, rfl⟩

/-- A last statement on two words leaves the response of its instruction, and that response's word in its variable. -/
theorem runProgram_two_words {s : State} {c : Nat} {op : Mnemonic} {o₁ o₂ : Operand} {a b : Word} {i : Instr} {r : Result}
    {f : Word → Response} (hp : s.program = [.call c op [o₁, o₂]]) (h₁ : evalOperand s.vars .word o₁ = .next (.word a))
    (h₂ : evalOperand s.vars .word o₂ = .next (.word b)) (hi : instrOf op [.word a, .word b] = some i)
    (hx : ∀ u : State, u.mulRound = s.mulRound →
      exec i u = .next { u with resp := some (f (r.settle u.draws)), draws := u.draws + r.drawCount }) :
    ∃ u, runProgram s = .next u ∧ u.resp = some (f (r.settle s.draws)) ∧
      readVar c u.vars = some (.word ((f (r.settle s.draws)).setWidth 16)) := by
  obtain ⟨hf, hwf⟩ := instrOf_two_words hi
  have he : evalOperands s.vars (paramsOf op) [o₁, o₂] = .next [.word a, .word b] := by
    rw [paramsOf_of_format_B hf]
    exact evalOperands_next_cons h₁ (evalOperands_next_cons h₂ rfl)
  have hop : op ≠ .toInt := by
    rintro rfl
    cases hf
  refine ⟨_, (runProgram_of_step_next hp (step_call_next hp he hi hwf (hx _ rfl) rfl)).trans (runProgram_of_nil rfl), rfl, ?_⟩
  rw [readVar_writeVar_same, valueOfResponse, if_neg hop]

/-- Where `i₁` delivers the word `y` and the instruction `i` does what `i₂` does on `y`, the statement of `i` may be written as the statement
of `i₁` and the statement of `i₂` on its variable. -/
theorem composition_runs_alike {s : State} {a b y : Word} {t c : Nat} {op op₁ op₂ : Mnemonic} {i i₁ i₂ : Instr}
    (hi : instrOf op [.word a, .word b] = some i) (hi₁ : instrOf op₁ [.word b] = some i₁)
    (hi₂ : instrOf op₂ [.word a, .word y] = some i₂) (hop₁ : op₁ ≠ .toInt)
    (hx₁ : ∀ u : State, u.mulRound = s.mulRound → exec i₁ u = .next (u.respondWord y))
    (hx : ∀ u : State, u.mulRound = s.mulRound → exec i u = exec i₂ u) :
    ∃ u u', runProgram { s with program := [.call c op [.word a, .word b]] } = .next u ∧
      runProgram { s with program := [.call t op₁ [.word b], .call c op₂ [.word a, .var t]] } = .next u' ∧
      u.resp = u'.resp ∧ readVar c u.vars = readVar c u'.vars := by
  obtain ⟨hf₁, hwf₁⟩ := instrOf_one_word hi₁
  obtain ⟨r, f, hx₂⟩ := exec_resp_of_result i₂ s.mulRound
  obtain ⟨u, hu, hresp, hvar⟩ := runProgram_two_words (s := { s with program := [.call c op [.word a, .word b]] }) rfl
    (evalOperand_wordLiteral _ a) (evalOperand_wordLiteral _ b) hi fun u hu => (hx u hu).trans (hx₂ u hu)
  have he₁ : evalOperands s.vars (paramsOf op₁) [.word b] = .next [.word b] := by
    rw [paramsOf_of_format_U hf₁]
    exact evalOperands_next_cons (evalOperand_wordLiteral _ b) rfl
  obtain ⟨v, hstep, hprogram, hround, hdraws, hread⟩ : ∃ v,
      step { s with program := [.call t op₁ [.word b], .call c op₂ [.word a, .var t]] } = .next v ∧
      v.program = [.call c op₂ [.word a, .var t]] ∧ v.mulRound = s.mulRound ∧ v.draws = s.draws ∧
      readVar t v.vars = some (.word y) :=
    ⟨_, step_call_next rfl he₁ hi₁ hwf₁ (hx₁ _ rfl) rfl, rfl, rfl, rfl, by
      rw [readVar_writeVar_same, valueOfResponse_word hop₁]⟩
  obtain ⟨u', hu', hresp', hvar'⟩ := runProgram_two_words hprogram (evalOperand_wordLiteral _ a)
    (evalOperand_written nofun hread rfl) hi₂ (hround ▸ hx₂)
  rw [hdraws] at hresp' hvar'
  rw [← hprogram] at hstep ⊢
  exact ⟨u, u', hu, (runProgram_of_step_next rfl hstep).trans hu', hresp.trans hresp'.symm, hvar.trans hvar'.symm⟩

/-- Settles O45: negate, and reciprocal, deliver the word that add, and multiply, take in the composition's definition. -/
theorem compositionsGiveTheSameWords : Obligations.CompositionsGiveTheSameWords := by
  intro s a b t c _
  obtain ⟨u, u', hu, hu', hresp, hvar⟩ := composition_runs_alike (s := s) (t := t) (c := c)
    (rfl : instrOf .subtract [.word a, .word b] = some (.subtract a b)) (rfl : instrOf .negate [.word b] = _)
    (rfl : instrOf .add [.word a, .word (negate b)] = _) nofun (fun _ _ => rfl) (fun _ _ => rfl)
  obtain ⟨w, w', hw, hw', hresp', hvar'⟩ := composition_runs_alike (s := s) (t := t) (c := c)
    (rfl : instrOf .divide [.word a, .word b] = some (.divide a b)) (rfl : instrOf .reciprocal [.word b] = _)
    (rfl : instrOf .multiply [.word a, .word (reciprocal s.mulRound b)] = _) nofun (fun u hu => hu ▸ rfl) (fun u hu => hu ▸ rfl)
  exact ⟨u, u', w, w', hu, hu', hresp, hvar, hw, hw', hresp', hvar'⟩

end Sys2Proof.Machine
end

section
/-! PROOFS. Nested calls (30_encoding.md R83): the list of statements an expression expands to, and that running them gives the value of the
nested calls. -/

namespace Sys2Proof.Machine

/-! ### The expansion as a list -/

theorem expand_eq (e : Expr) (fresh : Nat) :
    expand e fresh = (callsInOrder fresh e, resultOperand fresh e, fresh + callCount e) := by
  induction e generalizing fresh with
  | arg o => rfl
  | call1 op e ih =>
    rw [expand, ih]
    rfl
  | call2 op e₁ e₂ ih₁ ih₂ =>
    rw [expand, ih₁, ih₂]
    simp only [callsInOrder, resultOperand, callCount, Nat.add_assoc]

/-- The calls write the consecutive variables from the first fresh one. -/
theorem destOf_callsInOrder (e : Expr) (fresh : Nat) :
    (callsInOrder fresh e).map destOf = (List.range' fresh (callCount e)).map some := by
  induction e generalizing fresh with
  | arg o => rfl
  | call1 op e ih =>
    rw [callsInOrder, callCount, List.map_append, ih, List.range'_1_concat, List.map_append]
    rfl
  | call2 op e₁ e₂ ih₁ ih₂ =>
    rw [callsInOrder, callCount, List.map_append, List.map_append, ih₁, ih₂, List.range'_1_concat, List.map_append,
      ← List.range'_append_1, List.map_append, Nat.add_assoc]
    rfl

theorem lt_above_of_mem_varsIn {e : Expr} {v : Nat} (h : v ∈ varsIn e) : v < e.above := by
  induction e with
  | arg o =>
    cases o with
    | var u =>
      obtain rfl := List.mem_singleton.mp h
      exact Nat.lt_succ_self v
    | word w | int n => cases h
  | call1 op e ih => exact ih h
  | call2 op e₁ e₂ ih₁ ih₂ =>
    obtain h | h := List.mem_append.mp h
    · exact lt_max_of_lt_left (ih₁ h)
    · exact lt_max_of_lt_right (ih₂ h)

/-- The operand that names a result is of the expression or one of the variables its calls write. -/
theorem resultOperand_above_le {e : Expr} {fresh : Nat} (h : e.above ≤ fresh) :
    (resultOperand fresh e).above ≤ fresh + callCount e := by
  cases e with
  | arg o => exact h
  | call1 op e => exact Nat.le_refl _
  | call2 op e₁ e₂ => exact Nat.le_of_eq (congrArg (· + 1) (Nat.add_assoc _ _ _))

/-! ### What evaluating an expression takes -/

theorem callValue_some {op : Mnemonic} {xs : List HostValue} {s t : State} {x : HostValue} (h : callValue op xs s = some (x, t)) :
    ∃ i r, instrOf op xs = some i ∧ exec i s = .next t ∧ t.resp = some r ∧ x = valueOfResponse op r := by
  unfold callValue at h
  split at h
  · cases h
  · next i hi =>
    split at h
    · next t' hx =>
      obtain ⟨r, hr, hxt⟩ := Option.map_eq_some_iff.mp h
      cases hxt
      exact ⟨i, r, hi, hx, hr, rfl⟩
    · cases h
    · cases h

theorem evalExpr_arg_some {o : Operand} {s t : State} {x : HostValue} (h : evalExpr (.arg o) s = some (x, t)) :
    operandValue s o = some x ∧ t = s := by
  obtain ⟨y, hy, hxt⟩ := Option.map_eq_some_iff.mp h
  cases hxt
  exact ⟨hy, rfl⟩

theorem evalExpr_call1_some {op : Mnemonic} {e : Expr} {s t : State} {x : HostValue}
    (h : evalExpr (.call1 op e) s = some (x, t)) :
    ∃ x₁ s₁, evalExpr e s = some (x₁, s₁) ∧ callValue op [x₁] s₁ = some (x, t) := by
  rw [evalExpr] at h
  split at h
  · cases h
  · exact ⟨_, _, ‹_›, h⟩

theorem evalExpr_call2_some {op : Mnemonic} {e₁ e₂ : Expr} {s t : State} {x : HostValue}
    (h : evalExpr (.call2 op e₁ e₂) s = some (x, t)) :
    ∃ x₁ s₁ x₂ s₂, evalExpr e₁ s = some (x₁, s₁) ∧ evalExpr e₂ s₁ = some (x₂, s₂) ∧
      callValue op [x₁, x₂] s₂ = some (x, t) := by
  rw [evalExpr] at h
  split at h
  · cases h
  · split at h
    · cases h
    · exact ⟨_, _, _, _, ‹_›, ‹_›, h⟩

/-! ### Operands by value -/

theorem operandValue_congr {s u : State} {n : Nat} (h : ∀ v < n, readVar v s.vars = readVar v u.vars) {o : Operand}
    (ho : o.above ≤ n) : operandValue s o = operandValue u o := by
  cases o with
  | word w | int n => rfl
  | var v => exact h v ho

theorem operandValue_of_evalOperand {s : State} {p : Param} {o : Operand} {x : HostValue}
    (h : evalOperand s.vars p o = .next x) : operandValue s o = some x := by
  obtain ⟨w, rfl, rfl⟩ | ⟨n, rfl, rfl, _⟩ | ⟨v, rfl, hread, _⟩ := evalOperand_next_cases h
  · rfl
  · rfl
  · exact hread

theorem operandValue_of_evalOperands {s : State} {ps : List Param} {os : List Operand} {xs : List HostValue}
    (h : evalOperands s.vars ps os = .next xs) : os.map (operandValue s) = xs.map some := by
  induction ps generalizing os xs with
  | nil => cases os <;> cases h; rfl
  | cons p ps ih =>
    cases os with
    | nil => cases h
    | cons o os =>
      obtain ⟨y, ys, hy, hys, rfl⟩ := evalOperands_cons_next h
      rw [List.map_cons, List.map_cons, operandValue_of_evalOperand hy, ih hys]

/-- Operands that pass the check and have values are evaluated to those values. -/
theorem evalOperands_of_values {s : State} {ps : List Param} {os : List Operand} {xs : List HostValue}
    (hcheck : checkOperands (kindsOf s.vars) ps os = none) (hvals : os.map (operandValue s) = xs.map some) :
    evalOperands s.vars ps os = .next xs := by
  obtain ⟨ys, hys⟩ | ⟨v, hmem, hv, _⟩ := evalOperands_of_check hcheck
  · have hmap : ys.map some = xs.map some := (operandValue_of_evalOperands hys).symm.trans hvals
    rw [hys, List.map_injective_iff.mpr (Option.some_injective _) hmap]
  · have hnone : none ∈ xs.map some := by
      rw [← hvals]
      exact List.mem_map.mpr ⟨_, hmem, hv⟩
    obtain ⟨_, _, hcontra⟩ := List.mem_map.mp hnone
    cases hcontra

/-! ### The run beside the evaluation -/

/-- Two states with the same configuration, response and draws, and the same variables below `n`. -/
structure AgreeBelow (n : Nat) (s u : State) : Prop where
  mulRound : s.mulRound = u.mulRound
  resp : s.resp = u.resp
  draws : s.draws = u.draws
  vars : ∀ v < n, readVar v s.vars = readVar v u.vars

/-- An instruction answers states that agree with states that agree, and leaves the host's side of each. -/
theorem exec_agreeBelow {n : Nat} {i : Instr} {s u t : State} (h : AgreeBelow n s u) (hx : exec i s = .next t) :
    ∃ t', exec i u = .next t' ∧ AgreeBelow n t t' ∧ t'.program = u.program ∧ t'.vars = u.vars := by
  obtain ⟨r, f, hexec⟩ := exec_resp_of_result i u.mulRound
  cases (hexec s h.mulRound).symm.trans hx
  refine ⟨_, hexec u rfl, ⟨h.mulRound, ?_, ?_, h.vars⟩, rfl, rfl⟩
  · rw [h.draws]
  · rw [h.draws]

/-- The state is about to run `stmts` and then `rest`, and `stmts` followed by `tail` passes the assembler's check. -/
structure AboutToRun (stmts rest tail : List Stmt) (u : State) : Prop where
  host : hostOk u = true
  program : u.program = stmts ++ rest
  check : checkStmts (kindsOf u.vars) (stmts ++ tail) = none

theorem aboutToRun_append {p q rest tail : List Stmt} {u : State} :
    AboutToRun (p ++ q) rest tail u ↔ AboutToRun p (q ++ rest) (q ++ tail) u := by
  constructor <;> rintro ⟨hhost, hprogram, hcheck⟩
  · exact ⟨hhost, hprogram.trans (List.append_assoc _ _ _), List.append_assoc p q tail ▸ hcheck⟩
  · exact ⟨hhost, hprogram.trans (List.append_assoc _ _ _).symm, (List.append_assoc p q tail).symm ▸ hcheck⟩

/-- One call beside its evaluation: the statement's step goes on with the call's value in its variable. -/
theorem step_callValue {n dst : Nat} {op : Mnemonic} {args : List Operand} {rest tail : List Stmt} {s t u : State}
    {xs : List HostValue} {x : HostValue} (hrun : AboutToRun [.call dst op args] rest tail u) (hagree : AgreeBelow n s u)
    (hn : n ≤ dst) (hargs : args.map (operandValue u) = xs.map some) (hval : callValue op xs s = some (x, t)) :
    ∃ u', step u = .next u' ∧ AboutToRun [] rest tail u' ∧ readVar dst u'.vars = some x ∧ AgreeBelow n t u' ∧
      ∀ v, v ≠ dst → readVar v u'.vars = readVar v u.vars := by
  obtain ⟨i, r, hi, hx, hr, rfl⟩ := callValue_some hval
  obtain ⟨hcheck, htail⟩ := checkStmts_call_iff.mp hrun.check
  have he := evalOperands_of_values hcheck hargs
  have hagree' : AgreeBelow n s { u with program := rest } := ⟨hagree.mulRound, hagree.resp, hagree.draws, hagree.vars⟩
  obtain ⟨t', hx', ⟨hround, hresp, hdraws, hvars⟩, hprogram, hkept⟩ := exec_agreeBelow hagree' hx
  have hstep := step_call_next hrun.program he hi (instrOf_evalOperands_wellFormed hrun.host he hi) hx' (hresp.symm.trans hr)
  rw [hkept] at hstep hvars
  have hother (v : Nat) (hv : v ≠ dst) := readVar_writeVar_other hv (valueOfResponse op r) u.vars
  refine ⟨_, hstep, ⟨step_keeps_hostOk hrun.host hstep, hprogram, ?_⟩, readVar_writeVar_same dst _ _,
    ⟨hround, hresp, hdraws, fun v hv => (hvars v hv).trans (hother v (by omega)).symm⟩, hother⟩
  rw [checkStmts_writeVar, valueOfResponse_kind]
  exact htail

theorem runSteps_add {s t : State} {j : Nat} (h : runSteps j s = .next t) (k : Nat) : runSteps (j + k) s = runSteps k t := by
  induction j generalizing s with
  | zero =>
    cases h
    rw [Nat.zero_add]
  | succ j ih =>
    rw [Nat.succ_add]
    simp only [runSteps] at h ⊢
    split at h
    · exact ih h
    · cases h
    · cases h

/-- The statements of an expression run to its value: the state they leave holds it in the result operand, agrees with the evaluation below
`n`, and has every variable below the fresh ones as it was. -/
theorem runSteps_callsInOrder {n : Nat} {e : Expr} {fresh : Nat} {rest tail : List Stmt} {s t u : State} {x : HostValue}
    (hrun : AboutToRun (callsInOrder fresh e) rest tail u) (hagree : AgreeBelow n s u) (he : e.above ≤ n) (hn : n ≤ fresh)
    (hval : evalExpr e s = some (x, t)) :
    ∃ u', runSteps (callCount e) u = .next u' ∧ AboutToRun [] rest tail u' ∧ operandValue u' (resultOperand fresh e) = some x ∧
      AgreeBelow n t u' ∧ ∀ v < fresh, readVar v u'.vars = readVar v u.vars := by
  induction e generalizing fresh rest tail s t u x with
  | arg o =>
    obtain ⟨hx, rfl⟩ := evalExpr_arg_some hval
    exact ⟨u, rfl, hrun, (operandValue_congr hagree.vars he).symm.trans hx, hagree, fun _ _ => rfl⟩
  | call1 op e ih =>
    obtain ⟨x₁, s₁, hval₁, hcall⟩ := evalExpr_call1_some hval
    obtain ⟨u₁, hrun₁, habout₁, hx₁, hagree₁, hkept₁⟩ := ih (aboutToRun_append.mp hrun) hagree he hn hval₁
    obtain ⟨u₂, hstep, habout₂, hx, hagree₂, hkept₂⟩ := step_callValue (aboutToRun_append.mpr habout₁) hagree₁ (by omega)
      (by rw [List.map_singleton, hx₁, List.map_singleton]) hcall
    refine ⟨u₂, ?_, habout₂, hx, hagree₂, fun v hv => (hkept₂ v (by omega)).trans (hkept₁ v hv)⟩
    rw [callCount, runSteps_add hrun₁, runSteps_succ_of_next hstep, runSteps]
  | call2 op e₁ e₂ ih₁ ih₂ =>
    obtain ⟨x₁, s₁, x₂, s₂, hval₁, hval₂, hcall⟩ := evalExpr_call2_some hval
    obtain ⟨he₁, he₂⟩ := max_le_iff.mp he
    obtain ⟨u₁, hrun₁, habout₁, hx₁, hagree₁, hkept₁⟩ :=
      ih₁ (aboutToRun_append.mp (aboutToRun_append.mp hrun)) hagree he₁ hn hval₁
    obtain ⟨u₂, hrun₂, habout₂, hx₂, hagree₂, hkept₂⟩ :=
      ih₂ (aboutToRun_append.mpr habout₁) hagree₁ he₂ (by omega) hval₂
    have hx₁' : operandValue u₂ (resultOperand fresh e₁) = some x₁ :=
      (operandValue_congr hkept₂ (resultOperand_above_le (by omega))).trans hx₁
    obtain ⟨u₃, hstep, habout₃, hx, hagree₃, hkept₃⟩ := step_callValue (aboutToRun_append.mpr habout₂) hagree₂ (by omega)
      (by simp only [List.map_cons, List.map_nil, hx₁', hx₂]) hcall
    refine ⟨u₃, ?_, habout₃, hx, hagree₃,
      fun v hv => (hkept₃ v (by omega)).trans ((hkept₂ v (by omega)).trans (hkept₁ v hv))⟩
    rw [callCount, Nat.add_assoc, runSteps_add hrun₁, runSteps_add hrun₂, runSteps_succ_of_next hstep, runSteps]

/-! ### The obligations -/

/-- Settles O52: the expansion is the list of calls, whose variables are the consecutive ones from the first fresh one. -/
theorem nestedCallsExpandInOrder : Obligations.NestedCallsExpandInOrder := by
  intro e fresh
  have hdest : (expand e fresh).1.map destOf = (List.range' fresh (callCount e)).map some := by
    rw [expand_eq, destOf_callsInOrder]
  refine ⟨expand_eq e fresh, ?_, fun habove v hv hmem => ?_⟩
  · rw [hdest, List.range'_eq_map_range, List.map_map]
    rfl
  · rw [hdest] at hmem
    obtain ⟨w, hw, hwv⟩ := List.mem_map.mp hmem
    cases hwv
    have hlt := lt_above_of_mem_varsIn hv
    have hge := (List.mem_range'_1.mp hw).1
    omega

/-- Settles O53: the state with the statements agrees with itself, and runs them beside the evaluation. -/
theorem nestedCallsRunToTheirValue : Obligations.NestedCallsRunToTheirValue := by
  intro e fresh s t x rest hhost habove hcheck hval
  rw [expand_eq] at hcheck ⊢
  have hrun : AboutToRun (callsInOrder fresh e) rest [] { s with program := callsInOrder fresh e ++ rest } :=
    ⟨hhost, rfl, by rwa [List.append_nil]⟩
  obtain ⟨u, hu, habout, hx, hagree, hkept⟩ :=
    runSteps_callsInOrder (s := s) hrun ⟨rfl, rfl, rfl, fun _ _ => rfl⟩ habove (Nat.le_refl _) hval
  exact ⟨u, hu, habout.program, hx, hagree.resp.symm, hagree.draws.symm, hkept⟩

end Sys2Proof.Machine
end

section
/-! PROOFS. The bit codec (40_bitcodec.md R104 to R106): the request words of NEG and ABS, what they answer, and the laws of the two
functions. -/

namespace Sys2Proof

/-! ### Request words written out field after field -/

/-- A request word of two word operands, written out as its five fields in order, is the word of those fields. -/
theorem Request.append_eq_ofFields (o : BitVec 4) (r : BitVec 12) (k a b : BitVec 16) :
    (o ++ r ++ k ++ a ++ b : Request) = ofFields o r k a b :=
  BitVec.append_assoc

/-- The request word of NEG (30_encoding.md R78, R79). -/
theorem encode_negate (x : Word) : encode (.negate x) = 0x3#4 ++ 0#12 ++ 0#16 ++ x ++ 0#16 :=
  (Request.append_eq_ofFields _ _ _ _ _).symm

/-- The request word of ABS (30_encoding.md R78, R79). -/
theorem encode_abs (x : Word) : encode (.abs x) = 0x4#4 ++ 0#12 ++ 0#16 ++ x ++ 0#16 :=
  (Request.append_eq_ofFields _ _ _ _ _).symm

namespace Machine

/-! ### The laws of negate and abs (40_bitcodec.md R106) -/

@[simp] theorem negate_negate (x : Word) : negate (negate x) = x := by
  rw [negate, negate, BitVec.xor_assoc, BitVec.xor_self, BitVec.xor_zero]

@[simp] theorem absWord_absWord (x : Word) : absWord (absWord x) = absWord x := by
  rw [absWord, absWord, BitVec.and_assoc, BitVec.and_self]

/-- A magnitude has 15 bits. -/
theorem absWord_toNat_lt (x : Word) : (absWord x).toNat < 0x8000 := by
  rw [absWord, BitVec.toNat_and]
  exact Nat.lt_succ_of_le Nat.and_le_right

@[simp] theorem isNeg_absWord (x : Word) : isNeg (absWord x) = false :=
  decide_eq_false (Nat.not_le.mpr (absWord_toNat_lt x))

theorem absWord_xor (x y : Word) : absWord (x ^^^ y) = absWord x ^^^ absWord y := by
  ext i
  simp only [absWord, BitVec.getElem_and, BitVec.getElem_xor, Bool.and_xor_distrib_right]

/-- The flipped sign bit is the one bit that abs clears. -/
@[simp] theorem absWord_negate (x : Word) : absWord (negate x) = absWord x := by
  have hmask : absWord Config.signMask = 0 := rfl
  rw [negate, absWord_xor, hmask]
  exact BitVec.xor_zero

/-! ### The obligations -/

/-- Settles O17: the word is the request word of negate, and answering it writes the response alone. -/
theorem negateFlipsSign : Obligations.NegateFlipsSign := by
  intro x s
  rw [← encode_negate, exec_negate]
  exact ⟨decode_encode rfl, rfl⟩

/-- Settles O18: the word is the request word of abs, and answering it writes the response alone. -/
theorem absClearsSign : Obligations.AbsClearsSign := by
  intro x s
  rw [← encode_abs, exec_abs]
  exact ⟨decode_encode rfl, rfl⟩

/-- Settles O19: the four laws of 40_bitcodec.md R106. -/
theorem signLaws : Obligations.SignLaws :=
  fun x => ⟨negate_negate x, absWord_absWord x, isNeg_absWord x, absWord_negate x⟩

end Machine
end Sys2Proof
end

section
/-! PROOFS. Integer conversion (41_integer_conversion.md R120 to R125): from_int by the position of the leading 1, to_int as one truncated
quotient, and the round trip. -/

namespace Sys2Proof.Machine

/-! ### Words and responses as numbers -/

/-- A word in the response port is the number its fields make (30_encoding.md R81). -/
theorem setWidth_eq_wordNat (y : Word) : y.setWidth 32 = BitVec.ofNat 32 (wordNat (S y) (E y) (M y)) := by
  rw [wordNat, ← toNat_eq_fields, BitVec.ofNat_toNat]

/-- A result that is no draw writes the response alone. -/
theorem respond_value (y : Word) (s : State) : s.respond (.value y) = { s with resp := some (y.setWidth 32) } := rfl

theorem S_negate (x : Word) : S (negate x) = !S x := by
  rw [S, negate, BitVec.getLsbD_xor]
  exact Bool.xor_true _

theorem E_negate (x : Word) : E (negate x) = E x := by
  rw [E, negate, BitVec.extractLsb'_xor]
  exact congrArg BitVec.toNat BitVec.xor_zero

theorem M_negate (x : Word) : M (negate x) = M x := by
  rw [M, negate, BitVec.extractLsb'_xor]
  exact congrArg BitVec.toNat BitVec.xor_zero

/-! ### from_int (R120, R121) -/

/-- Up to |n| = 131071 the leading 1 of a magnitude stands at position 16 at most. -/
theorem log2_natAbs_le {n : Int} (hn : n ≠ 0) (h : n.natAbs ≤ 131071) : n.natAbs.log2 ≤ 16 :=
  Nat.le_of_lt_succ ((Nat.log2_lt (Int.natAbs_ne_zero.mpr hn)).mpr (Nat.lt_succ_of_le h))

/-- From |n| = 131072 on the exponent exceeds 31. -/
theorem fromInt_of_ge {n : Int} (h : 131072 ≤ n.natAbs) : fromInt n = .unspecified .fromIntOor := by
  have hn : n ≠ 0 := by omega
  have hd : 17 ≤ n.natAbs.log2 := (Nat.le_log2 (by omega)).mpr h
  have he : ¬ n.natAbs.log2 + 15 ≤ 31 := by omega
  exact (dif_neg hn).trans (dif_neg he)

/-- Where it does not, the fields are packed. -/
theorem fromInt_of_exponent_le {n : Int} (hn : n ≠ 0) (he : n.natAbs.log2 + 15 ≤ 31) :
    fromInt n = .value (pack (decide (n < 0)) (n.natAbs.log2 + 15) (align10 n.natAbs (Int.natAbs_pos.mpr hn)).2 he
      (align10_mantissa_le _ _)) :=
  (dif_neg hn).trans (dif_pos he)

/-- The word `y` has the fields that R120 gives to `n` other than 0: its sign, the exponent of its leading 1, and the eleven binary digits
from the leading 1 down. -/
structure HasFieldsOf (y : Word) (n : Int) : Prop where
  sign : S y = decide (n < 0)
  exponent : E y = n.natAbs.log2 + 15
  significand : 1024 + M y = n.natAbs * 1024 / 2 ^ n.natAbs.log2

/-- Up to |n| = 131071 from_int's word has them. -/
theorem fromInt_hasFieldsOf {n : Int} (hn : n ≠ 0) (h : n.natAbs ≤ 131071) : ∃ y, fromInt n = .value y ∧ HasFieldsOf y n := by
  have hd := log2_natAbs_le hn h
  have he : n.natAbs.log2 + 15 ≤ 31 := by omega
  have hlead : 1024 ≤ n.natAbs * 1024 / 2 ^ n.natAbs.log2 := by
    rw [Nat.le_div_iff_mul_le (Nat.two_pow_pos _), Nat.mul_comm]
    exact Nat.mul_le_mul_right _ (Nat.log2_self_le (Int.natAbs_ne_zero.mpr hn))
  refine ⟨_, fromInt_of_exponent_le hn he, S_pack _ _ _ _ _, E_pack _ _ _ _ _, ?_⟩
  rw [M_pack, align10_mantissa]
  omega

theorem signOf_eq_sign {y : Word} {n : Int} (hn : n ≠ 0) (hS : S y = decide (n < 0)) : signOf y = n.sign := by
  rw [signOf, hS]
  rcases lt_or_gt_of_ne hn with h | h
  · rw [decide_eq_true h, Int.sign_eq_neg_one_of_neg h]
    rfl
  · rw [decide_eq_false (by omega), Int.sign_eq_one_of_pos h]
    rfl

/-- Eleven digits from position `d` down, put back in their place: what is left of `N` when the `d - 10` digits below them are cleared. -/
theorem truncate_mul_pow (N d : Nat) : N * 1024 / 2 ^ d * 2 ^ d = (N - N % 2 ^ (d - 10)) * 1024 := by
  rcases Nat.le_total d 10 with hd | hd
  · have hdvd : 2 ^ d ∣ N * 1024 := Dvd.dvd.mul_left (Nat.pow_dvd_pow 2 hd) N
    rw [Nat.div_mul_cancel hdvd, Nat.sub_eq_zero_of_le hd, Nat.pow_zero, Nat.mod_one, Nat.sub_zero]
  · obtain ⟨k, rfl⟩ := Nat.exists_eq_add_of_le hd
    have hpow : 2 ^ (10 + k) = 2 ^ k * 1024 := by rw [Nat.add_comm, Nat.pow_add]
    have hmod : N / 2 ^ k * 2 ^ k = N - N % 2 ^ k := Nat.div_mul_self_eq_mod_sub_self
    rw [hpow, Nat.mul_div_mul_right _ _ (by decide), ← Nat.mul_assoc, hmod, Nat.add_sub_cancel_left]

/-- The magnitude of from_int's word, in the units of 30_encoding.md R72: |n| with the bits below its 11 leading ones cleared. -/
theorem HasFieldsOf.units {n : Int} {y : Word} (hy : HasFieldsOf y n) :
    (1024 + M y) * 2 ^ E y = (n.natAbs - n.natAbs % 2 ^ (n.natAbs.log2 - 10)) * 2 ^ 25 := by
  have hpow : 2 ^ 25 = 1024 * 2 ^ 15 := rfl
  rw [hpow, hy.exponent, hy.significand, Nat.pow_add, ← Nat.mul_assoc, truncate_mul_pow, Nat.mul_assoc]

/-- From |n| = 65536 on the exponent is that of the infinities (R121). -/
theorem HasFieldsOf.exponent_of_ge {n : Int} {y : Word} (hy : HasFieldsOf y n) (hlo : 65536 ≤ n.natAbs) (hhi : n.natAbs ≤ 131071) :
    E y = 31 := by
  have hd : n.natAbs.log2 = 16 := (Nat.log2_eq_iff (by omega)).mpr ⟨hlo, Nat.lt_succ_of_le hhi⟩
  rw [hy.exponent, hd]

/-- Flipping the sign of the word gives the fields of the negated integer. -/
theorem HasFieldsOf.eq_negate {n : Int} {y z : Word} (hn : n ≠ 0) (hy : HasFieldsOf y n) (hz : HasFieldsOf z (-n)) : z = negate y := by
  obtain ⟨hS, hE, hM⟩ := hy
  obtain ⟨hS', hE', hM'⟩ := hz
  rw [Int.natAbs_neg] at hE' hM'
  have hsign : decide (-n < 0) = !decide (n < 0) := by
    rw [← decide_not]
    exact decide_eq_decide.mpr (by omega)
  refine word_ext_fields ?_ ?_ ?_
  · rw [S_negate, hS, hS', hsign]
  · rw [E_negate, hE, hE']
  · rw [M_negate]
    omega

/-- from_int(−n) is from_int(n) with the sign flipped, for n other than 0 (R122). -/
theorem fromInt_neg {n : Int} {y : Word} (hn : n ≠ 0) (h : n.natAbs ≤ 131071) (hy : HasFieldsOf y n) :
    fromInt (-n) = .value (negate y) := by
  obtain ⟨z, hneg, hz⟩ := fromInt_hasFieldsOf (neg_ne_zero.mpr hn) (by rwa [Int.natAbs_neg])
  rw [hneg, hy.eq_negate hn hz]

/-- The value of from_int's word is n exactly where no bit of |n| is cleared (R122). -/
theorem HasFieldsOf.scaledValue_iff {n : Int} {y : Word} (hn : n ≠ 0) (h : n.natAbs ≤ 65535) (hy : HasFieldsOf y n) :
    scaledValue y = some (n * 2 ^ 25) ↔ n.natAbs % 2 ^ (n.natAbs.log2 - 10) = 0 := by
  have hd : n.natAbs.log2 < 16 := (Nat.log2_lt (Int.natAbs_ne_zero.mpr hn)).mpr (Nat.lt_succ_of_le h)
  have hE := hy.exponent
  have hle := Nat.mod_le n.natAbs (2 ^ (n.natAbs.log2 - 10))
  have hvalue : scaledValue y = some (n.sign * (n.natAbs - n.natAbs % 2 ^ (n.natAbs.log2 - 10) : Nat) * 2 ^ 25) := by
    rw [scaledValue, valueOf_finite (by omega) (by omega), units_finite, signOf_eq_sign hn hy.sign, hy.units, Nat.cast_mul,
      ← mul_assoc]
    rfl
  calc scaledValue y = some (n * 2 ^ 25)
      ↔ n.sign * (n.natAbs - n.natAbs % 2 ^ (n.natAbs.log2 - 10) : Nat) * 2 ^ 25 = n.sign * n.natAbs * 2 ^ 25 := by
        rw [hvalue, Option.some_inj, Int.sign_mul_natAbs]
    _ ↔ n.natAbs - n.natAbs % 2 ^ (n.natAbs.log2 - 10) = n.natAbs := by
        rw [mul_left_inj' (by decide), mul_right_inj' (Int.sign_eq_zero_iff_zero.not.mpr hn), Nat.cast_inj]
    _ ↔ n.natAbs % 2 ^ (n.natAbs.log2 - 10) = 0 := by omega

/-! ### to_int (R123, R124) -/

/-- Below the exponent 15 the magnitude of a word is less than 1. -/
theorem units_div_of_lt {x : Word} (hE : E x < 15) : (1024 + M x) * 2 ^ E x / 2 ^ 25 = 0 := by
  have hM := M_le x
  refine Nat.div_eq_of_lt ?_
  calc (1024 + M x) * 2 ^ E x < 2 ^ 11 * 2 ^ E x := Nat.mul_lt_mul_of_pos_right (by omega) (Nat.two_pow_pos _)
    _ ≤ 2 ^ 11 * 2 ^ 14 := Nat.mul_le_mul_left _ (Nat.pow_le_pow_right (by decide) (by omega))

/-- From there on the unit and the exponent bias cancel. -/
theorem units_div_of_exponent {x : Word} {u : Nat} (hu : E x = 15 + u) :
    (1024 + M x) * 2 ^ E x / 2 ^ 25 = (1024 + M x) * 2 ^ u / 1024 := by
  have hunits : (1024 + M x) * 2 ^ E x = (1024 + M x) * 2 ^ u * 2 ^ 15 := by
    rw [hu, Nat.pow_add, Nat.mul_comm (2 ^ 15), Nat.mul_assoc]
  have hpow : 2 ^ 25 = 1024 * 2 ^ 15 := rfl
  rw [hunits, hpow, Nat.mul_div_mul_right _ _ (Nat.two_pow_pos 15)]

/-- to_int as one quotient at every exponent: the magnitude in units of 2^−25 (30_encoding.md R72), divided and truncated. -/
theorem toInt_eq (x : Word) : toInt x = signOf x * ((1024 + M x) * 2 ^ E x / 2 ^ 25 : Nat) := by
  rcases Nat.lt_or_ge (E x) 15 with hE | hE
  · have hneg : (E x : Int) - Config.bias < 0 := by simp only [Config.bias]; omega
    rw [toInt, if_pos hneg, units_div_of_lt hE, Nat.cast_zero, mul_zero]
  · obtain ⟨u, hu⟩ := Nat.exists_eq_add_of_le hE
    have hbias : (E x : Int) - Config.bias = u := by simp only [Config.bias]; omega
    have hquot : (1024 + M x) * 2 ^ u / 1024 = 2 ^ u + (2 ^ u * M x) >>> 10 := by
      rw [Nat.add_mul, Nat.mul_add_div (by decide), Nat.mul_comm (M x), Nat.shiftRight_eq_div_pow]
    rw [toInt, hbias, if_neg (by omega), units_div_of_exponent hu, hquot, Int.toNat_natCast]

/-- The quotient by the exponent field (R124). -/
theorem units_div_cases (x : Word) :
    (1024 + M x) * 2 ^ E x / 2 ^ 25 =
      if E x < 15 then 0 else if E x = 31 then 65536 + 64 * M x else (1024 + M x) * 2 ^ (E x - 15) / 1024 := by
  split_ifs with hlow hinf
  · exact units_div_of_lt hlow
  · rw [units_div_of_exponent (u := 16) hinf]
    omega
  · exact units_div_of_exponent (Nat.add_sub_of_le (Nat.le_of_not_lt hlow)).symm

/-- Truncation toward zero keeps the sign apart from the magnitude. -/
theorem signOf_mul_tdiv (x : Word) (m d : Nat) : (signOf x * m).tdiv d = signOf x * (m / d : Nat) := by
  unfold signOf
  split
  · rw [neg_one_mul, neg_one_mul, Int.neg_tdiv, Int.ofNat_tdiv]
  · rw [one_mul, one_mul, Int.ofNat_tdiv]

/-- to_int is the value truncated toward zero (R124). -/
theorem toInt_of_scaledValue {x : Word} {v : Int} (h : scaledValue x = some v) : toInt x = v.tdiv (2 ^ 25) := by
  by_cases hzero : E x = 0 ∧ M x = 0
  · obtain ⟨hE, hM⟩ := hzero
    rw [scaledValue, valueOf_zero hE hM] at h
    cases h
    rw [toInt_eq, units_div_of_lt (by omega), Nat.cast_zero, mul_zero, Int.zero_tdiv]
  · rw [scaledValue, valueOf_finite hzero (E_ne_of_scaledValue h)] at h
    cases h
    exact (toInt_eq x).trans (signOf_mul_tdiv x _ (2 ^ 25)).symm

/-- No magnitude exceeds that of the infinity-tagged word with all mantissa bits set. -/
theorem natAbs_toInt_le (x : Word) : (toInt x).natAbs ≤ 131008 := by
  rw [toInt_eq, Int.natAbs_mul, natAbs_signOf, Int.natAbs_natCast, Nat.one_mul]
  calc (1024 + M x) * 2 ^ E x / 2 ^ 25
      ≤ 2047 * 2 ^ 31 / 2 ^ 25 := Nat.div_le_div_right (Nat.mul_le_mul (Nat.add_le_add_left (M_le x) 1024)
        (Nat.pow_le_pow_right (by decide) (E_le x)))
    _ = 131008 := by decide

/-! ### The obligations -/

/-- Settles O20, by the fields of from_int's word; the digits below the leading 1 are what its mantissa holds. -/
theorem fromIntEncodesMagnitude : Obligations.FromIntEncodesMagnitude := by
  intro n s hfits
  refine ⟨decode_encode (i := .fromInt n) hfits, ?zero, ?word, ?draw⟩
  case zero =>
    rintro rfl
    rfl
  case word =>
    intro d hd hlo hhi
    have hn : n ≠ 0 := Int.natAbs_pos.mp ((Nat.two_pow_pos d).trans_le hlo)
    have hlog : n.natAbs.log2 = d := (Nat.log2_eq_iff (Int.natAbs_ne_zero.mpr hn)).mpr ⟨hlo, hhi⟩
    have hmax : n.natAbs ≤ 131071 :=
      Nat.le_of_lt_succ (hhi.trans_le (Nat.pow_le_pow_right (by decide) (Nat.succ_le_succ hd)))
    obtain ⟨y, hy, hS, hE, hM⟩ := fromInt_hasFieldsOf hn hmax
    rw [hlog] at hE hM
    rw [exec_fromInt, hy, respond_value, setWidth_eq_wordNat, hS, hE, ← hM, Nat.add_sub_cancel_left]
  case draw =>
    intro h
    rw [exec_fromInt, fromInt_of_ge h]
    rfl

/-- Settles O21: for n other than 0, by the fields of the word; 0 is encoded by itself. -/
theorem fromIntProperties : Obligations.FromIntProperties := by
  refine ⟨fun n h => ?_, rfl, rfl⟩
  by_cases hn : n = 0
  · subst hn
    exact ⟨0, rfl, .inl rfl, fun h => absurd rfl h, fun _ => by decide, fun h => absurd h (by decide)⟩
  · obtain ⟨y, hy, hf⟩ := fromInt_hasFieldsOf hn h
    have hE := hf.exponent
    refine ⟨y, hy, .inr ?_, fun _ => fromInt_neg hn h hf, fun h => hf.scaledValue_iff hn h, fun hinf => ?_⟩
    · rw [← E_eq_expOf, hE]
      exact Nat.le_add_left _ _
    · rw [valueOf_inf (hf.exponent_of_ge hinf h), hf.sign]

/-- Settles O22: to_int divides out the units that from_int's magnitude is a multiple of. -/
theorem roundTripTruncates : Obligations.RoundTripTruncates := by
  intro n h
  by_cases hn : n = 0
  · subst hn
    exact ⟨0, rfl, by decide⟩
  · obtain ⟨y, hy, hf⟩ := fromInt_hasFieldsOf hn h
    refine ⟨y, hy, ?_⟩
    rw [toInt_eq, signOf_eq_sign hn hf.sign, hf.units, Nat.mul_div_cancel _ (Nat.two_pow_pos 25),
      Nat.add_sub_add_right _ 1 10]

/-- Settles O23, by the quotient that to_int is. -/
theorem toIntByExponent : Obligations.ToIntByExponent := by
  intro x s
  rw [← E_eq_expOf, ← M_eq_manOf, ← S_eq_isNeg, ← units_div_cases, exec_toInt, toInt_eq]
  refine ⟨?_, rfl⟩
  rw [Request.append_eq_ofFields]
  exact decode_encode (i := .toInt x) rfl

/-- Settles O24: the quotient truncates the units of the value, and no word has more of them than 2047 × 2^31. -/
theorem toIntTruncatesValue : Obligations.ToIntTruncatesValue := by
  refine ⟨fun x v h => toInt_of_scaledValue h, fun x => ?_⟩
  have := natAbs_toInt_le x
  omega

end Sys2Proof.Machine
end

section
/-! PROOFS. Decimal mode (41_integer_conversion.md R126, R127): k multiplications by the reciprocal of ten, as an iteration, and the words
that it keeps. -/

namespace Sys2Proof.Machine

/-! ### The request and its answer -/

/-- Where from_int takes no draw, decimal mode writes the response alone. -/
theorem exec_fromIntWithDecimal_of_value {n : Int} {y : Word} (h : fromInt n = .value y) (k : Nat) (s : State) :
    exec (.fromIntWithDecimal n k) s = .next { s with resp := some ((scaleDown s.mulRound k y).setWidth 32) } := by
  rw [exec_fromIntWithDecimal, h]
  rfl

/-! ### The multiplications as an iteration -/

theorem multiplyTimes_eq_iterate (rd : MulRoundReading) (r : Word) (k : Nat) (v : Word) :
    multiplyTimes rd r k v = (multiply rd · r)^[k] v := by
  induction k generalizing v with
  | zero => rfl
  | succ k ih => exact ih _

theorem scaleDown_succ (rd : MulRoundReading) (k : Nat) (v : Word) :
    scaleDown rd (k + 1) v = multiply rd (scaleDown rd k v) (reciprocal rd Config.ten) := by
  simp only [scaleDown, multiplyTimes_eq_iterate, Function.iterate_succ_apply']

theorem scaleDown_add (rd : MulRoundReading) (j k : Nat) (v : Word) :
    scaleDown rd (j + k) v = scaleDown rd j (scaleDown rd k v) := by
  simp only [scaleDown, multiplyTimes_eq_iterate, Function.iterate_add_apply]

/-- A word that one multiplication keeps, decimal mode keeps. -/
theorem scaleDown_of_fixed {rd : MulRoundReading} {v : Word} (h : multiply rd v (reciprocal rd Config.ten) = v) (k : Nat) :
    scaleDown rd k v = v := by
  rw [scaleDown, multiplyTimes_eq_iterate]
  exact Function.iterate_fixed h k

/-- The words that k multiplications give one after the other end in decimal mode's. -/
theorem scaleDown_of_steps {rd : MulRoundReading} {k : Nat} {v : Nat → Word}
    (h : ∀ j, j < k → v (j + 1) = multiply rd (v j) (reciprocal rd Config.ten)) : scaleDown rd k (v 0) = v k := by
  induction k with
  | zero => rfl
  | succ k ih => rw [scaleDown_succ, ih fun j hj => h j (hj.trans k.lt_succ_self), h k k.lt_succ_self]

/-! ### The words that are kept (R127) -/

theorem reciprocal_ten_onShift : reciprocal .onShift Config.ten = 0x2E69 := by decide
theorem reciprocal_ten_always : reciprocal .always Config.ten = 0x2E66 := by decide

/-- The reciprocal of ten has no sign, so a multiplication by it keeps the sign. -/
theorem S_reciprocal_ten (rd : MulRoundReading) : S (reciprocal rd Config.ten) = false := by
  cases rd
  · rw [reciprocal_ten_onShift]; rfl
  · rw [reciprocal_ten_always]; rfl

theorem rawMagnitude_reciprocal_ten (rd : MulRoundReading) : rawMagnitude (reciprocal rd Config.ten) ≠ 0 := by
  cases rd
  · rw [reciprocal_ten_onShift]; decide
  · rw [reciprocal_ten_always]; decide

/-- A zero operand gives the zero of the combined sign (44_multiplier.md R202). -/
theorem multiply_of_zero {a b : Word} (rd : MulRoundReading) (h : rawMagnitude a = 0 ∨ rawMagnitude b = 0) :
    multiply rd a b = signedZero (S a ^^ S b) :=
  if_pos h

theorem rawMagnitude_ne_zero_of_inf {a : Word} (h : E a = 31) : rawMagnitude a ≠ 0 := by
  rw [rawMagnitude_eq, h]
  omega

/-- An infinity by a word that is no zero is the canonical infinity of the combined sign (44_multiplier.md R203). -/
theorem multiply_of_inf_left {a b : Word} (rd : MulRoundReading) (ha : E a = 31) (hb : rawMagnitude b ≠ 0) :
    multiply rd a b = signedInf (S a ^^ S b) :=
  (if_neg (not_or.mpr ⟨rawMagnitude_ne_zero_of_inf ha, hb⟩)).trans (if_pos (.inl ha))

theorem scaleDown_zero (rd : MulRoundReading) (k : Nat) : scaleDown rd k 0 = 0 := by
  refine scaleDown_of_fixed ?_ k
  rw [multiply_of_zero rd (.inl rfl), S_reciprocal_ten]
  rfl

/-- The first multiplication makes an infinity canonical, and the others keep it. -/
theorem scaleDown_of_inf (rd : MulRoundReading) (k : Nat) {v : Word} (h : E v = 31) : scaleDown rd (k + 1) v = signedInf (S v) := by
  have hstep {w : Word} (hw : E w = 31) : multiply rd w (reciprocal rd Config.ten) = signedInf (S w) := by
    rw [multiply_of_inf_left rd hw (rawMagnitude_reciprocal_ten rd), S_reciprocal_ten, Bool.xor_false]
  have hfixed (s : Bool) : multiply rd (signedInf s) (reciprocal rd Config.ten) = signedInf s := by
    cases s <;> exact hstep rfl
  rw [scaleDown_add]
  exact (congrArg _ (hstep h)).trans (scaleDown_of_fixed (hfixed _) k)

/-- The largest finite word underflows within 9 multiplications, under either reading. -/
theorem scaleDown_nine_largest (rd : MulRoundReading) : scaleDown rd 9 0x7BFF = 0 := by
  cases rd <;> decide

/-! ### The obligations -/

/-- Settles O25: the words of the hypotheses are those that decimal mode goes through. -/
theorem decimalModeMultipliesKTimes : Obligations.DecimalModeMultipliesKTimes := by
  refine ⟨reciprocal_ten_onShift, reciprocal_ten_always, fun n k s v hfirst hstep => ⟨fun hn hk => ?_, ?_⟩⟩
  · exact decode_encode (i := .fromIntWithDecimal n k) (Bool.and_eq_true_iff.mpr ⟨hn, (countFits_iff k).mpr hk⟩)
  · rw [exec_fromIntWithDecimal, ← hfirst, scaleDown_of_steps hstep]
    rfl

/-- Settles O26: zero and the canonical infinities are kept; 65504 is the largest finite word, which reaches zero in 9 steps. -/
theorem decimalModeCorners : Obligations.DecimalModeCorners := by
  intro s n k
  refine ⟨rfl, ?zero, ?inf, ?draw, ?largest⟩
  case zero =>
    rw [exec_fromIntWithDecimal_of_value (y := 0) rfl, scaleDown_zero]
    rfl
  case inf =>
    intro hlo hhi
    obtain ⟨y, hy, hf⟩ := fromInt_hasFieldsOf (by omega) hhi
    rw [exec_fromIntWithDecimal_of_value hy, scaleDown_of_inf _ k (hf.exponent_of_ge hlo hhi), hf.sign]
    split_ifs with h
    · rw [decide_eq_true h]
      rfl
    · rw [decide_eq_false h]
      rfl
  case draw =>
    intro h
    rw [exec_fromIntWithDecimal, fromInt_of_ge h]
    rfl
  case largest =>
    rw [exec_fromIntWithDecimal_of_value (y := 0x7BFF) rfl, scaleDown_add, scaleDown_nine_largest, scaleDown_zero]
    rfl

end Sys2Proof.Machine
end

section
/-! PROOFS. The reciprocal (42_reciprocal_nr.md R150 to R154). As raw integers words add like logarithms: a product's raw magnitude is the
sum of its operands', up to a bounded excess, so the seed makes `mag * est` nearly 1.0, and both steps stay far from a negative factor.
The raw magnitude of 1.0 is 15360, and that of the canonical infinities 31744. -/

namespace Sys2Proof.Machine

/-! ### Fields and raw magnitudes -/

theorem reconstructed_eq (x : Word) : reconstructed x = 1024 + M x :=
  (Nat.shiftLeft_add_eq_or_of_lt (a := 1) (i := 10) (Nat.lt_succ_of_le (M_le x))).symm

theorem E_le_of_rawMagnitude_lt {x : Word} {n : Nat} (h : rawMagnitude x < (n + 1) * 1024) : E x ≤ n := by
  rw [rawMagnitude_eq] at h
  omega

theorem rawMagnitude_of_S_eq_false {x : Word} (h : S x = false) : rawMagnitude x = x.toNat := by
  rw [rawMagnitude_eq, toNat_eq_fields x, h, Bool.toNat_false, Nat.zero_mul, Nat.zero_add]

@[simp] theorem S_signedZero (s : Bool) : S (signedZero s) = s := by cases s <;> rfl
@[simp] theorem S_signedInf (s : Bool) : S (signedInf s) = s := by cases s <;> rfl
@[simp] theorem rawMagnitude_signedZero (s : Bool) : rawMagnitude (signedZero s) = 0 := by cases s <;> rfl
@[simp] theorem rawMagnitude_signedInf (s : Bool) : rawMagnitude (signedInf s) = 31744 := by cases s <;> rfl

@[simp] theorem rawMagnitude_pack (s : Bool) (e m : Nat) (he : e ≤ 31) (hm : m ≤ 1023) :
    rawMagnitude (pack s e m he hm) = e * 1024 + m := by
  rw [rawMagnitude_eq, E_pack, M_pack]

/-- A raw magnitude of zero, or from 0x0400 to 0x7C00, is that of a zero, a NORMAL word or a canonical infinity (30_encoding.md R73). -/
theorem classOf_of_rawMagnitude {x : Word} (h : rawMagnitude x = 0 ∨ (1024 ≤ rawMagnitude x ∧ rawMagnitude x ≤ 31744)) :
    classOf x ≠ .exp0 ∧ (classOf x = .inf → manOf x = 0) := by
  have hE := E_le x
  have hM := M_le x
  rw [rawMagnitude_eq] at h
  rw [← M_eq_manOf]
  by_cases hinf : E x = 31
  · rw [classOf_inf hinf]
    exact ⟨nofun, fun _ => by omega⟩
  · by_cases hzero : E x = 0
    · rw [classOf_zero hzero (by omega)]
      exact ⟨nofun, nofun⟩
    · rw [classOf_normal hzero hinf]
      exact ⟨nofun, nofun⟩

/-! ### Products (44_multiplier.md R200 to R208) -/

theorem saturate_of_lt (s : Bool) {ce : Int} {m : Nat} (hm : m ≤ 1023) (hlo : 0 ≤ ce) (hhi : ce < 31) :
    saturate s ce m hm = pack s ce.toNat m (by omega) hm :=
  dif_neg (by omega)

theorem saturate_of_ge (s : Bool) {ce : Int} {m : Nat} (hm : m ≤ 1023) (h : 31 ≤ ce) : saturate s ce m hm = signedInf s :=
  dif_pos (.inl h)

theorem S_saturate (s : Bool) (ce : Int) (m : Nat) (hm : m ≤ 1023) : S (saturate s ce m hm) = s := by
  unfold saturate
  split
  · exact S_signedInf s
  · exact S_pack _ _ _ _ _

/-- On raw integers, saturating is a minimum. -/
theorem rawMagnitude_saturate (s : Bool) {ce : Int} {m : Nat} (hm : m ≤ 1023) (hce : 0 ≤ ce) :
    rawMagnitude (saturate s ce m hm) = min (ce.toNat * 1024 + m) 31744 := by
  rcases lt_or_ge ce 31 with h | h
  · rw [saturate_of_lt s hm hce h, rawMagnitude_pack]
    omega
  · rw [saturate_of_ge s hm h, rawMagnitude_signedInf]
    omega

/-- On raw integers, rounding adds at most 1: the carry out of the mantissa goes into the exponent. -/
theorem roundStep_raw (rbit : Bool) {ce : Int} (m : Nat) (hce : 0 ≤ ce) :
    0 ≤ (roundStep rbit ce m).1 ∧
      ∃ c ≤ 1, (roundStep rbit ce m).1.toNat * 1024 + (roundStep rbit ce m).2 = ce.toNat * 1024 + m + c := by
  unfold roundStep
  split_ifs
  · exact ⟨by dsimp only; omega, 1, le_refl 1, by dsimp only; omega⟩
  · exact ⟨hce, 1, le_refl 1, (Nat.add_assoc _ _ _).symm⟩
  · exact ⟨hce, 0, Nat.zero_le 1, (Nat.add_zero _).symm⟩

theorem rawMagnitude_saturate_roundStep (s rbit : Bool) {ce : Int} {m : Nat} (hm : m ≤ 1023) (hce : 0 ≤ ce) :
    ∃ c ≤ 1, rawMagnitude (saturate s (roundStep rbit ce m).1 (roundStep rbit ce m).2 (roundStep_mantissa_le rbit ce m hm))
      = min (ce.toNat * 1024 + m + c) 31744 := by
  obtain ⟨hpos, c, hc, hround⟩ := roundStep_raw rbit m hce
  exact ⟨c, hc, by rw [rawMagnitude_saturate s _ hpos, hround]⟩

/-- The cross term is at most half the sum of the mantissas; and since no mantissa reaches 1024, the product significand is at least twice
that sum. -/
theorem productSignificand_bounds {ma mb : Nat} (ha : ma ≤ 1023) (hb : mb ≤ 1023) :
    1024 + ma + mb ≤ productSignificand ma mb ∧ 2 * (ma + mb) ≤ productSignificand ma mb ∧
      2 * productSignificand ma mb ≤ 2048 + 3 * (ma + mb) := by
  have hle : ma * mb ≤ 1023 * mb := Nat.mul_le_mul_right _ ha
  have hle' : ma * mb ≤ ma * 1023 := Nat.mul_le_mul_left _ hb
  have hgap : 1024 * (ma + mb) ≤ 1024 * 1024 + ma * mb := by nlinarith
  rw [productSignificand, Nat.shiftRight_eq_div_pow]
  omega

/-- Where the product of the significands is 2.0 or more, bit 11 says so. -/
theorem productSignificand_testBit {ma mb : Nat} (ha : ma ≤ 1023) (hb : mb ≤ 1023) :
    (productSignificand ma mb).testBit 11 = decide (2048 ≤ productSignificand ma mb) := by
  have := productSignificand_bounds ha hb
  rw [Nat.testBit_eq_decide_div_mod_eq]
  exact decide_eq_decide.mpr (by omega)

/-- The renormalised product on raw integers, before rounding. -/
theorem renormalised_raw {ce : Int} {ma mb : Nat} (hce : 0 ≤ ce) (ha : ma ≤ 1023) (hb : mb ≤ 1023) :
    ∃ c ≤ 341, (if (productSignificand ma mb).testBit 11 then ce + 1 else ce).toNat * 1024
        + mask10 (if (productSignificand ma mb).testBit 11 then productSignificand ma mb >>> 1 else productSignificand ma mb)
      = ce.toNat * 1024 + (ma + mb) + c := by
  rw [productSignificand_testBit ha hb]
  obtain ⟨hlo, hlo', hhi⟩ := productSignificand_bounds ha hb
  simp only [decide_eq_true_eq, mask10_eq_mod, Nat.shiftRight_eq_div_pow]
  split_ifs with h
  · exact ⟨productSignificand ma mb / 2 - (ma + mb), by omega, by omega⟩
  · exact ⟨productSignificand ma mb - 1024 - (ma + mb), by omega, by omega⟩

/-- The significand path on raw integers: the mantissas add, and the product, renormalised and rounded, exceeds their sum by 342 at most. -/
theorem rawMagnitude_multiplySignificand (rd : MulRoundReading) (s : Bool) {ce : Int} {ma mb : Nat} (hce : 0 ≤ ce) (ha : ma ≤ 1023)
    (hb : mb ≤ 1023) :
    ∃ c ≤ 342, rawMagnitude (multiplySignificand rd s ce ma mb) = min (ce.toNat * 1024 + (ma + mb) + c) 31744 := by
  obtain ⟨c, hc, hsum⟩ := renormalised_raw hce ha hb
  obtain ⟨c', hc', hraw⟩ := rawMagnitude_saturate_roundStep s
    (roundBit rd ((productSignificand ma mb).testBit 11) (productSignificand ma mb))
    (ce := if (productSignificand ma mb).testBit 11 then ce + 1 else ce) (mask10_le _) (by split <;> omega)
  rw [hsum, Nat.add_assoc] at hraw
  exact ⟨c + c', by omega, hraw⟩

theorem S_multiplySignificand (rd : MulRoundReading) (s : Bool) (ce : Int) (ma mb : Nat) :
    S (multiplySignificand rd s ce ma mb) = s :=
  S_saturate s _ _ _

/-- Two finite words that are no zeros and whose exponents' sum exceeds the bias take the significand path. -/
theorem multiply_of_significand (rd : MulRoundReading) {a b : Word} (hzero : ¬ (rawMagnitude a = 0 ∨ rawMagnitude b = 0))
    (hinf : ¬ (E a = 31 ∨ E b = 31)) (hce : 15 < E a + E b) :
    multiply rd a b = multiplySignificand rd (S a ^^ S b) ((E a : Int) + E b - 15) (M a) (M b) :=
  have hflush : ¬ (E a : Int) + E b - 15 ≤ 0 := by omega
  (if_neg hzero).trans ((if_neg hinf).trans (if_neg hflush))

/-- What multiply can give: a zero, an infinity, or the word of the significand path. -/
theorem multiply_cases (rd : MulRoundReading) (a b : Word) :
    multiply rd a b = signedZero (S a ^^ S b) ∨ multiply rd a b = 0 ∨
    ((E a = 31 ∨ E b = 31) ∧ multiply rd a b = signedInf (S a ^^ S b)) ∨
    (15 < E a + E b ∧ multiply rd a b = multiplySignificand rd (S a ^^ S b) ((E a : Int) + E b - 15) (M a) (M b)) := by
  by_cases hzero : rawMagnitude a = 0 ∨ rawMagnitude b = 0
  · exact .inl (if_pos hzero)
  by_cases hinf : E a = 31 ∨ E b = 31
  · exact .inr (.inr (.inl ⟨hinf, (if_neg hzero).trans (if_pos hinf)⟩))
  by_cases hce : 15 < E a + E b
  · exact .inr (.inr (.inr ⟨hce, multiply_of_significand rd hzero hinf hce⟩))
  · have hflush : (E a : Int) + E b - 15 ≤ 0 := by omega
    exact .inr (.inl ((if_neg hzero).trans ((if_neg hinf).trans (if_pos hflush))))

/-- Words of one sign have a product without sign, an underflow's zero included. -/
theorem S_multiply_of_S_eq (rd : MulRoundReading) {a b : Word} (h : S a = S b) : S (multiply rd a b) = false := by
  have hs : (S a ^^ S b) = false := by rw [h, Bool.xor_self]
  obtain hy | hy | ⟨_, hy⟩ | ⟨_, hy⟩ := multiply_cases rd a b
  · rw [hy, S_signedZero, hs]
  · rw [hy]; rfl
  · rw [hy, S_signedInf, hs]
  · rw [hy, S_multiplySignificand, hs]

/-- On the significand path the raw magnitudes add, less that of 1.0 and up to an excess of at most 342, saturated. -/
theorem rawMagnitude_multiplySignificand_words (rd : MulRoundReading) (s : Bool) {a b : Word} (h : 15 < E a + E b) :
    ∃ c ≤ 342, rawMagnitude (multiplySignificand rd s ((E a : Int) + E b - 15) (M a) (M b))
      = min (rawMagnitude a + rawMagnitude b - 15360 + c) 31744 := by
  have hraw : ((E a : Int) + E b - 15).toNat * 1024 + (M a + M b) = rawMagnitude a + rawMagnitude b - 15360 := by
    rw [rawMagnitude_eq, rawMagnitude_eq]
    omega
  rw [← hraw]
  exact rawMagnitude_multiplySignificand rd s (by omega) (M_le a) (M_le b)

/-- A product of finite words has at most that raw magnitude, a zero or an underflow included. -/
theorem rawMagnitude_multiply_le (rd : MulRoundReading) {a b : Word} (ha : E a ≠ 31) (hb : E b ≠ 31) :
    rawMagnitude (multiply rd a b) ≤ rawMagnitude a + rawMagnitude b + 342 - 15360 := by
  obtain hy | hy | ⟨hinf, _⟩ | ⟨hce, hy⟩ := multiply_cases rd a b
  · rw [hy, rawMagnitude_signedZero]
    exact Nat.zero_le _
  · rw [hy]
    exact Nat.zero_le _
  · exact (not_or.mpr ⟨ha, hb⟩ hinf).elim
  · obtain ⟨c, hc, hraw⟩ := rawMagnitude_multiplySignificand_words rd (S a ^^ S b) hce
    have ha' := rawMagnitude_eq a
    have hb' := rawMagnitude_eq b
    rw [hy, hraw]
    omega

/-- On the significand path a product's raw magnitude is at least the operands' sum less that of 1.0. -/
theorem le_rawMagnitude_multiply (rd : MulRoundReading) {a b : Word} (ha : rawMagnitude a ≠ 0) (hb : rawMagnitude b ≠ 0)
    (ha' : E a ≠ 31) (hb' : E b ≠ 31) (h : 15 < E a + E b) :
    min (rawMagnitude a + rawMagnitude b - 15360) 31744 ≤ rawMagnitude (multiply rd a b) := by
  obtain ⟨c, _, hraw⟩ := rawMagnitude_multiplySignificand_words rd (S a ^^ S b) h
  rw [multiply_of_significand rd (not_or.mpr ⟨ha, hb⟩) (not_or.mpr ⟨ha', hb'⟩) h, hraw]
  omega

/-- The raw magnitude of a product is 0, or from 0x0400 to 0x7C00. -/
theorem rawMagnitude_multiply_range (rd : MulRoundReading) (a b : Word) :
    rawMagnitude (multiply rd a b) = 0 ∨ (1024 ≤ rawMagnitude (multiply rd a b) ∧ rawMagnitude (multiply rd a b) ≤ 31744) := by
  obtain hy | hy | ⟨_, hy⟩ | ⟨hce, hy⟩ := multiply_cases rd a b
  · exact .inl (hy ▸ rawMagnitude_signedZero _)
  · exact .inl (hy ▸ rfl)
  · rw [hy, rawMagnitude_signedInf]
    exact .inr (by decide)
  · obtain ⟨c, hc, hraw⟩ := rawMagnitude_multiplySignificand_words rd (S a ^^ S b) hce
    have ha := rawMagnitude_eq a
    have hb := rawMagnitude_eq b
    rw [hy, hraw]
    omega

/-! ### 2 − x (43_adder.md R172 to R174) -/

theorem Result.value_word (r : Result) (h : r.isValue = true) : r = .value (r.word h) := by
  cases r with
  | value y => rfl
  | unspecified d => cases h

/-- Subtracting from 2 never takes the draw (42_reciprocal_nr.md R154). -/
theorem subtract_two (x : Word) : subtract Config.two x = .value (subtractFromTwo x) :=
  Result.value_word _ _

/-- Where the exponent is in range, renormalising packs it with the ten bits below the leading 1. -/
theorem renormalise_of_range (s : Bool) {EL C : Nat} (hC : 0 < C) (hlo : 10 ≤ EL + C.log2) (hhi : EL + C.log2 ≤ 41) :
    ∃ y, renormalise s EL C = .value y ∧ S y = s ∧ E y = EL + C.log2 - 10 ∧ M y = C * 1024 / 2 ^ C.log2 - 1024 := by
  have he : 0 ≤ (EL : Int) + C.log2 - 10 ∧ (EL : Int) + C.log2 - 10 ≤ 31 := by omega
  refine ⟨_, (dif_neg hC.ne').trans (dif_pos he), S_pack _ _ _ _ _, ?_, ?_⟩
  · rw [E_pack]
    simp only [align10_digits]
    omega
  · rw [M_pack, align10_mantissa]

/-- The mantissa of 2 less that of `x` aligned to the exponent 16 of 2: 2 − x in units of 2^−9, for an `x` from 0 to below 2. -/
def twoMinus (x : Word) : Nat := 1024 - (1024 + M x) / 2 ^ (16 - E x)

/-- Below 2 the alignment shifts by one place at least. -/
theorem alignedMantissa_lt {x : Word} (hE : E x ≤ 15) : (1024 + M x) / 2 ^ (16 - E x) < 1024 := by
  have hM := M_le x
  calc (1024 + M x) / 2 ^ (16 - E x) ≤ (1024 + M x) / 2 ^ 1 :=
        Nat.div_le_div_left (Nat.pow_le_pow_right (by decide) (by omega)) (by decide)
    _ < 1024 := by omega

/-- `twoMinus x` is positive for an `x` below 2. -/
theorem twoMinus_pos {x : Word} (hE : E x ≤ 15) : 0 < twoMinus x :=
  Nat.sub_pos_of_lt (alignedMantissa_lt hE)

/-- From x = 0.75 on, `twoMinus x` is at most 640, which is 1.25. -/
theorem twoMinus_le {x : Word} (hE : E x ≤ 15) (hx : 14848 ≤ rawMagnitude x) : twoMinus x ≤ 640 := by
  have hM := M_le x
  rw [rawMagnitude_eq] at hx
  obtain h | h : E x = 14 ∨ E x = 15 := by omega
  · rw [twoMinus, h]
    omega
  · rw [twoMinus, h]
    omega

/-- The aligned mantissa of 2 is the larger one, so the difference has the sign of 2. -/
theorem subtract_two_eq_renormalise {x : Word} (hS : S x = false) (hE : E x ≤ 15) :
    subtract Config.two x = renormalise false 16 (twoMinus x) := by
  have halign : alignOperands Config.two (negate x) = ⟨16, 1024, (1024 + M x) / 2 ^ (16 - E x)⟩ := by
    have hge : E Config.two ≥ E (negate x) := by
      rw [E_negate]
      exact hE.trans (by decide)
    rw [alignOperands, if_pos hge, reconstructed_eq, reconstructed_eq, E_negate, M_negate, Nat.shiftRight_eq_div_pow]
    rfl
  have hcombine : combineBySign (S Config.two) (S (negate x)) 1024 ((1024 + M x) / 2 ^ (16 - E x)) = (twoMinus x, false) := by
    have hsign : S Config.two ≠ S (negate x) := by
      rw [S_negate, hS]
      decide
    exact (if_neg hsign).trans (if_pos (alignedMantissa_lt hE))
  have hfin : E Config.two ≠ Config.expInf := by decide
  have hfin' : E (negate x) ≠ Config.expInf := by
    rw [E_negate, Config.expInf]
    omega
  simp only [subtract, add, if_neg hfin, if_neg hfin', halign, hcombine]

/-- `2 - x` is positive, with the exponent and the mantissa of the difference renormalised. -/
theorem subtractFromTwo_fields {x : Word} (hS : S x = false) (hE : E x ≤ 15) :
    S (subtractFromTwo x) = false ∧ E (subtractFromTwo x) = (twoMinus x).log2 + 6 ∧
      M (subtractFromTwo x) = twoMinus x * 1024 / 2 ^ (twoMinus x).log2 - 1024 := by
  have hpos := twoMinus_pos hE
  have hlog : (twoMinus x).log2 < 11 := (Nat.log2_lt hpos.ne').mpr (Nat.lt_of_le_of_lt (Nat.sub_le _ _) (by decide))
  obtain ⟨y, hy, hSy, hEy, hMy⟩ := renormalise_of_range false hpos (EL := 16) (by omega) (by omega)
  have hword : subtractFromTwo x = y :=
    Result.value.inj ((subtract_two x).symm.trans ((subtract_two_eq_renormalise hS hE).trans hy))
  rw [hword]
  exact ⟨hSy, by omega, hMy⟩

/-- `2 - x` is at most 1.25 for an `x` from 0.75 to below 2. -/
theorem rawMagnitude_subtractFromTwo_le {x : Word} (hS : S x = false) (hE : E x ≤ 15) (hx : 14848 ≤ rawMagnitude x) :
    rawMagnitude (subtractFromTwo x) ≤ 15616 := by
  obtain ⟨_, hEy, hMy⟩ := subtractFromTwo_fields hS hE
  have hM := M_le (subtractFromTwo x)
  have hle := twoMinus_le hE hx
  have hlog : (twoMinus x).log2 < 10 := (Nat.log2_lt (twoMinus_pos hE).ne').mpr (Nat.lt_of_le_of_lt hle (by decide))
  rw [rawMagnitude_eq, hEy]
  by_cases h : (twoMinus x).log2 = 9
  · rw [h] at hMy ⊢
    omega
  · omega

/-! ### The two steps (42_reciprocal_nr.md R152, R154) -/

/-- A step keeps a nonnegative estimate nonnegative while `mag * est` is below 2. -/
theorem S_nrStep (rd : MulRoundReading) {mag est : Word} (hmag : S mag = false) (hest : S est = false)
    (h : E (multiply rd mag est) ≤ 15) : S (nrStep rd mag est) = false := by
  have hprod : S (multiply rd mag est) = false := S_multiply_of_S_eq rd (hmag.trans hest.symm)
  exact S_multiply_of_S_eq rd (hest.trans (subtractFromTwo_fields hprod h).1.symm)

section
variable {mag : Word} (hmag : mag.toNat < 0x7780)
include hmag

theorem S_of_lt_threshold : S mag = false := by
  rw [S_eq]
  exact decide_eq_false (by omega)

theorem toNat_seed : (Config.recipThreshold - mag).toNat = 0x7780 - mag.toNat :=
  BitVec.toNat_sub_of_le (BitVec.le_def.mpr hmag.le)

theorem S_seed : S (Config.recipThreshold - mag) = false := by
  rw [S_eq, toNat_seed hmag]
  exact decide_eq_false (by omega)

/-- The raw magnitudes of the operand and of the seed add up to the threshold, nearly twice that of 1.0. -/
theorem rawMagnitude_add_seed : rawMagnitude mag + rawMagnitude (Config.recipThreshold - mag) = 30592 := by
  rw [rawMagnitude_of_S_eq_false (S_of_lt_threshold hmag), rawMagnitude_of_S_eq_false (S_seed hmag), toNat_seed hmag]
  omega

theorem E_ne_of_lt_threshold : E mag ≠ 31 := by
  have hle : E mag ≤ 29 := E_le_of_rawMagnitude_lt (by have := rawMagnitude_add_seed hmag; omega)
  omega

theorem E_seed_ne : E (Config.recipThreshold - mag) ≠ 31 := by
  have hle : E (Config.recipThreshold - mag) ≤ 29 := E_le_of_rawMagnitude_lt (by have := rawMagnitude_add_seed hmag; omega)
  omega

/-- `mag` times the seed is below 2. -/
theorem E_firstProduct_le (rd : MulRoundReading) : E (multiply rd mag (Config.recipThreshold - mag)) ≤ 15 := by
  have hsum := rawMagnitude_add_seed hmag
  have hle := rawMagnitude_multiply_le rd (E_ne_of_lt_threshold hmag) (E_seed_ne hmag)
  exact E_le_of_rawMagnitude_lt (by omega)

/-- `mag` times the seed is at least 0.9375, unless `mag` is zero. -/
theorem le_rawMagnitude_firstProduct (rd : MulRoundReading) (h : rawMagnitude mag ≠ 0) :
    15232 ≤ rawMagnitude (multiply rd mag (Config.recipThreshold - mag)) := by
  have hsum := rawMagnitude_add_seed hmag
  have hmag' := rawMagnitude_eq mag
  have hseed' := rawMagnitude_eq (Config.recipThreshold - mag)
  have hM := M_le mag
  have hM' := M_le (Config.recipThreshold - mag)
  have hseed : rawMagnitude (Config.recipThreshold - mag) ≠ 0 := by
    rw [rawMagnitude_of_S_eq_false (S_seed hmag), toNat_seed hmag]
    omega
  have hle := le_rawMagnitude_multiply rd h hseed (E_ne_of_lt_threshold hmag) (E_seed_ne hmag) (by omega)
  omega

theorem S_firstEstimate (rd : MulRoundReading) : S (nrStep rd mag (Config.recipThreshold - mag)) = false :=
  S_nrStep rd (S_of_lt_threshold hmag) (S_seed hmag) (E_firstProduct_le hmag rd)

/-- The first step multiplies the seed by at most 1.25, which is at most 598 more on raw integers. -/
theorem rawMagnitude_firstEstimate_le (rd : MulRoundReading) (h : rawMagnitude mag ≠ 0) :
    rawMagnitude (nrStep rd mag (Config.recipThreshold - mag)) ≤ rawMagnitude (Config.recipThreshold - mag) + 598 := by
  have hfactor : rawMagnitude (subtractFromTwo (multiply rd mag (Config.recipThreshold - mag))) ≤ 15616 := by
    have hge := le_rawMagnitude_firstProduct hmag rd h
    exact rawMagnitude_subtractFromTwo_le (S_multiply_of_S_eq rd ((S_of_lt_threshold hmag).trans (S_seed hmag).symm))
      (E_firstProduct_le hmag rd) (by omega)
  have hE : E (subtractFromTwo (multiply rd mag (Config.recipThreshold - mag))) ≤ 15 := E_le_of_rawMagnitude_lt (by omega)
  have hle := rawMagnitude_multiply_le rd (E_seed_ne hmag) (hE.trans_lt (by decide)).ne
  rw [nrStep]
  omega

/-- `mag` times the first estimate is below 2 too: two excesses and the first step's factor do not reach it. -/
theorem E_secondProduct_le (rd : MulRoundReading) : E (multiply rd mag (nrStep rd mag (Config.recipThreshold - mag))) ≤ 15 := by
  by_cases h : rawMagnitude mag = 0
  · rw [multiply_of_zero rd (.inl h)]
    exact E_le_of_rawMagnitude_lt (by rw [rawMagnitude_signedZero]; decide)
  · have hsum := rawMagnitude_add_seed hmag
    have hest := rawMagnitude_firstEstimate_le hmag rd h
    have hE : E (nrStep rd mag (Config.recipThreshold - mag)) ≤ 30 := E_le_of_rawMagnitude_lt (by omega)
    have hle := rawMagnitude_multiply_le rd (E_ne_of_lt_threshold hmag) (hE.trans_lt (by decide)).ne
    exact E_le_of_rawMagnitude_lt (by omega)

/-- The estimate has no sign after the second step either. -/
theorem S_estimate (rd : MulRoundReading) : S (estimate rd mag) = false :=
  S_nrStep rd (S_of_lt_threshold hmag) (S_firstEstimate hmag rd) (E_secondProduct_le hmag rd)

end

/-! ### The sign re-attached (42_reciprocal_nr.md R151) -/

/-- A magnitude with a sign attached has that sign and the fields of the word. -/
theorem absWord_or_signedZero_fields (w : Word) (s : Bool) :
    S (absWord w ||| signedZero s) = s ∧ E (absWord w ||| signedZero s) = E w ∧ M (absWord w ||| signedZero s) = M w := by
  have hS : S (absWord w) = false := by rw [S_eq_isNeg, isNeg_absWord]
  have hE : (absWord w).extractLsb' 10 5 = w.extractLsb' 10 5 := BitVec.extractLsb'_and.trans BitVec.and_allOnes
  have hM : (absWord w).extractLsb' 0 10 = w.extractLsb' 0 10 := BitVec.extractLsb'_and.trans BitVec.and_allOnes
  refine ⟨?_, ?_, ?_⟩
  · rw [S, BitVec.getLsbD_or, ← S, ← S, hS, S_signedZero, Bool.false_or]
  · have hzero : (signedZero s).extractLsb' 10 5 = 0 := by cases s <;> rfl
    rw [E, BitVec.extractLsb'_or, hE, hzero]
    exact congrArg BitVec.toNat BitVec.or_zero
  · have hzero : (signedZero s).extractLsb' 0 10 = 0 := by cases s <;> rfl
    rw [M, BitVec.extractLsb'_or, hM, hzero]
    exact congrArg BitVec.toNat BitVec.or_zero

theorem negate_absWord_or_signedZero (w : Word) (s : Bool) :
    negate (absWord w ||| signedZero s) = absWord w ||| signedZero (!s) := by
  obtain ⟨hS, hE, hM⟩ := absWord_or_signedZero_fields w s
  obtain ⟨hS', hE', hM'⟩ := absWord_or_signedZero_fields w (!s)
  refine word_ext_fields ?_ ?_ ?_
  · rw [S_negate, hS, hS']
  · rw [E_negate, hE, hE']
  · rw [M_negate, hM, hM']

/-- At the threshold and above, RECIP answers zero. -/
theorem reciprocal_of_ge (rd : MulRoundReading) {x : Word} (h : 0x7780 ≤ (absWord x).toNat) : reciprocal rd x = 0 :=
  if_pos h

/-- Below the threshold, RECIP answers the magnitude's estimate with the operand's sign. -/
theorem reciprocal_of_lt (rd : MulRoundReading) {x : Word} (h : (absWord x).toNat < 0x7780) :
    reciprocal rd x = absWord (estimate rd (absWord x)) ||| signedZero (S x) :=
  if_neg (Nat.not_le.mpr h)

/-- Words of one magnitude have one estimate, so their reciprocals differ in the sign only. -/
theorem reciprocal_negate (rd : MulRoundReading) {x : Word} (h : (absWord x).toNat < 0x7780) :
    reciprocal rd (negate x) = negate (reciprocal rd x) := by
  have h' : (absWord (negate x)).toNat < 0x7780 := by rwa [absWord_negate]
  rw [reciprocal_of_lt rd h', reciprocal_of_lt rd h, absWord_negate, S_negate, negate_absWord_or_signedZero]

/-- The raw magnitude of a reciprocal is 0 or that of a product. -/
theorem rawMagnitude_reciprocal_range (rd : MulRoundReading) (x : Word) :
    rawMagnitude (reciprocal rd x) = 0 ∨ (1024 ≤ rawMagnitude (reciprocal rd x) ∧ rawMagnitude (reciprocal rd x) ≤ 31744) := by
  rcases Nat.lt_or_ge (absWord x).toNat 0x7780 with h | h
  · obtain ⟨_, hE, hM⟩ := absWord_or_signedZero_fields (estimate rd (absWord x)) (S x)
    rw [reciprocal_of_lt rd h, rawMagnitude_eq, hE, hM, ← rawMagnitude_eq]
    exact rawMagnitude_multiply_range rd _ _
  · rw [reciprocal_of_ge rd h]
    exact .inl rfl

/-- The request word of RECIP (30_encoding.md R78, R79). -/
theorem encode_reciprocal (x : Word) : encode (.reciprocal x) = 0x5#4 ++ 0#12 ++ 0#16 ++ x ++ 0#16 :=
  (Request.append_eq_ofFields _ _ _ _ _).symm

/-! ### The obligations -/

/-- Settles O40: below the threshold the two subtractions are the words that the estimate goes through. -/
theorem reciprocalIsTwoSteps : Obligations.ReciprocalIsTwoSteps := by
  intro x mag s hmag
  subst hmag
  refine ⟨?_, fun h => ?_, fun h => ?_⟩
  · rw [← encode_reciprocal]
    exact decode_encode rfl
  · rw [exec_reciprocal, reciprocal_of_ge _ h]
    rfl
  · refine ⟨_, _, _, _, _, toNat_seed h, subtract_two _, rfl, subtract_two _, rfl, ?_⟩
    rw [exec_reciprocal, reciprocal_of_lt _ h, ← S_eq_isNeg]
    rfl

/-- Settles O41: `mag * est` is below 2 before either step, so neither factor is negative. -/
theorem estimateIsNotNegative : Obligations.EstimateIsNotNegative := by
  intro rd mag h
  rw [← S_eq_isNeg, ← S_eq_isNeg]
  exact ⟨S_firstEstimate h rd, S_estimate h rd⟩

/-- Settles O42: a reciprocal has the raw magnitude of a product, and the sign of its operand. -/
theorem reciprocalResults : Obligations.ReciprocalResults := by
  intro rd
  have hzero : reciprocal rd 0x0000 = 0x7C00 := by cases rd <;> decide
  refine ⟨hzero, ?_, fun x h => reciprocal_negate rd h, fun x => classOf_of_rawMagnitude (rawMagnitude_reciprocal_range rd x)⟩
  exact (reciprocal_negate rd (x := 0) (by decide)).trans (by rw [hzero]; rfl)

/-- Settles O39: the constants, evaluated. -/
theorem constantsComeFromInt : Obligations.ConstantsComeFromInt := by
  unfold Obligations.ConstantsComeFromInt
  decide

end Sys2Proof.Machine
end

section
/-! PROOFS. The adder (43_adder.md R170 to R177). Away from the infinities add renormalises one signed integer, the sum of the aligned
mantissas; what add answers is read off that sum. -/

namespace Sys2Proof.Machine

/-! ### The requests -/

/-- The request word of ADD (30_encoding.md R78, R79). -/
theorem encode_add (a b : Word) : encode (.add a b) = 0x6#4 ++ 0#12 ++ 0#16 ++ a ++ b :=
  (Request.append_eq_ofFields _ _ _ _ _).symm

/-- The request word of SUB (30_encoding.md R78, R79). -/
theorem encode_subtract (a b : Word) : encode (.subtract a b) = 0x7#4 ++ 0#12 ++ 0#16 ++ a ++ b :=
  (Request.append_eq_ofFields _ _ _ _ _).symm

/-! ### Infinity operands (R171) -/

theorem add_of_inf_left {a : Word} (b : Word) (ha : E a = 31) : add a b = .value a := if_pos ha

theorem add_of_inf_right {a b : Word} (ha : E a ≠ 31) (hb : E b = 31) : add a b = .value b := (if_neg ha).trans (if_pos hb)

/-! ### Alignment (R172) -/

/-- Both mantissas are shifted by their distance from the larger exponent; one of the shifts is by 0. -/
theorem alignOperands_eq (a b : Word) :
    alignOperands a b =
      ⟨max (E a) (E b), (1024 + M a) / 2 ^ (max (E a) (E b) - E a), (1024 + M b) / 2 ^ (max (E a) (E b) - E b)⟩ := by
  rw [alignOperands, reconstructed_eq, reconstructed_eq]
  split
  · next h => rw [max_eq_left h, Nat.sub_self, Nat.pow_zero, Nat.div_one, Nat.shiftRight_eq_div_pow]
  · next h => rw [max_eq_right (Nat.le_of_not_le h), Nat.sub_self, Nat.pow_zero, Nat.div_one, Nat.shiftRight_eq_div_pow]

theorem signedAligned_eq (EL : Nat) (x : Word) : signedAligned EL x = signOf x * ((1024 + M x) / 2 ^ (EL - E x) : Nat) := by
  rw [signedAligned, signOf, S_eq_isNeg, M_eq_manOf, E_eq_expOf]

/-- A mantissa aligned to its own exponent is not shifted. -/
theorem signedAligned_self (x : Word) : signedAligned (E x) x = signOf x * (1024 + M x : Nat) := by
  rw [signedAligned_eq, Nat.sub_self, Nat.pow_zero, Nat.div_one]

theorem natAbs_signedAligned (EL : Nat) (x : Word) : (signedAligned EL x).natAbs = (1024 + M x) / 2 ^ (EL - E x) := by
  rw [signedAligned_eq, Int.natAbs_mul, natAbs_signOf, Int.natAbs_natCast, Nat.one_mul]

theorem natAbs_signedAligned_lt (EL : Nat) (x : Word) : (signedAligned EL x).natAbs < 2048 := by
  have hM := M_le x
  rw [natAbs_signedAligned]
  exact (Nat.div_le_self _ _).trans_lt (by omega)

theorem alignedSum_comm (a b : Word) : alignedSum a b = alignedSum b a := by
  rw [alignedSum, alignedSum, max_comm, add_comm]

theorem natAbs_alignedSum_lt (a b : Word) : (alignedSum a b).natAbs < 4096 := by
  have ha := natAbs_signedAligned_lt (max (expOf a) (expOf b)) a
  have hb := natAbs_signedAligned_lt (max (expOf a) (expOf b)) b
  rw [alignedSum]
  omega

/-- Mantissas of one sign add up to at least the one that is not shifted. -/
theorem le_natAbs_alignedSum {a b : Word} (h : isNeg a = isNeg b) : 1024 ≤ (alignedSum a b).natAbs := by
  wlog hE : E b ≤ E a generalizing a b with hswap
  · rw [alignedSum_comm]
    exact hswap h.symm (Nat.le_of_not_le hE)
  have hsign : signOf b = signOf a := by rw [signOf, signOf, S_eq_isNeg, S_eq_isNeg, h]
  rw [alignedSum, ← E_eq_expOf, ← E_eq_expOf, max_eq_left hE, signedAligned_self, signedAligned_eq, hsign, ← mul_add, ← Nat.cast_add,
    Int.natAbs_mul, natAbs_signOf, Int.natAbs_natCast, Nat.one_mul, Nat.add_assoc]
  exact Nat.le_add_right _ _

/-! ### Combining by sign, and renormalising (R173, R174) -/

/-- Combining by sign is adding as signed integers. -/
theorem combineBySign_signed (sa sb : Bool) (ma mb : Nat) :
    (if (combineBySign sa sb ma mb).2 then -1 else 1) * ((combineBySign sa sb ma mb).1 : Int) =
      (if sa then -1 else 1) * (ma : Int) + (if sb then -1 else 1) * (mb : Int) := by
  unfold combineBySign
  split
  case isTrue h =>
    subst h
    rw [Nat.cast_add, mul_add]
  case isFalse h =>
    obtain rfl : sb = !sa := Bool.eq_not.mpr (Ne.symm h)
    obtain hlt | rfl | hlt := lt_trichotomy ma mb
    · rw [if_neg (Nat.lt_asymm hlt), if_pos hlt, Nat.cast_sub hlt.le]
      cases sa <;> simp <;> omega
    · rw [if_neg (Nat.lt_irrefl _), if_neg (Nat.lt_irrefl _)]
      cases sa <;> simp
    · rw [if_pos hlt, Nat.cast_sub hlt.le]
      cases sa <;> simp <;> omega

theorem renormalise_zero (s : Bool) (EL : Nat) : renormalise s EL 0 = .value 0x0000 := dif_pos rfl

/-- A signed integer other than 0 is its sign and its magnitude. -/
theorem eq_signed_iff {s : Bool} {C : Nat} {T : Int} (hC : 0 < C) :
    T = (if s then -1 else 1) * (C : Int) ↔ s = decide (T < 0) ∧ T.natAbs = C := by
  cases s with
  | false =>
    rw [if_neg Bool.false_ne_true, one_mul, eq_comm (a := false), decide_eq_false_iff_not]
    omega
  | true =>
    rw [if_pos rfl, neg_one_mul, eq_comm (a := true), decide_eq_true_iff]
    omega

/-- A sign and a magnitude renormalise as the signed integer they are; the sign of 0 does not matter. -/
theorem renormalise_of_signed {s : Bool} {C : Nat} {T : Int} (EL : Nat) (h : T = (if s then -1 else 1) * (C : Int)) :
    renormalise s EL C = renormalise (decide (T < 0)) EL T.natAbs := by
  obtain rfl | hC := Nat.eq_zero_or_pos C
  · obtain rfl : T = 0 := by rw [h, Nat.cast_zero, mul_zero]
    rw [Int.natAbs_zero, renormalise_zero, renormalise_zero]
  · obtain ⟨rfl, rfl⟩ := (eq_signed_iff hC).mp h
    rfl

/-- Outside the range of the exponent there is the draw. -/
theorem renormalise_of_not_range (s : Bool) {EL C : Nat} (hC : 0 < C) (h : ¬ (10 ≤ EL + C.log2 ∧ EL + C.log2 ≤ 41)) :
    renormalise s EL C = .unspecified .addUnderflow := by
  have he : ¬ (0 ≤ (EL : Int) + C.log2 - 10 ∧ (EL : Int) + C.log2 - 10 ≤ 31) := by omega
  exact (dif_neg hC.ne').trans (dif_neg he)

/-- Renormalising to a word of the same exponent means that the leading 1 is in its place already. -/
theorem renormalise_eq_value_iff (s : Bool) {C : Nat} (hC : 0 < C) (y : Word) :
    renormalise s (E y) C = .value y ↔ S y = s ∧ C = 1024 + M y := by
  have hM := M_le y
  constructor
  · intro h
    by_cases hrange : 10 ≤ E y + C.log2 ∧ E y + C.log2 ≤ 41
    · obtain ⟨z, hz, hS, hE, hMz⟩ := renormalise_of_range s hC hrange.1 hrange.2
      obtain rfl : z = y := Result.value.inj (hz.symm.trans h)
      have hlog : C.log2 = 10 := by omega
      have hlo : 2 ^ 10 ≤ C := hlog ▸ Nat.log2_self_le hC.ne'
      rw [hlog] at hMz
      exact ⟨hS, by omega⟩
    · rw [renormalise_of_not_range s hC hrange] at h
      cases h
  · rintro ⟨rfl, rfl⟩
    have hlog : (1024 + M y).log2 = 10 := (Nat.log2_eq_iff hC.ne').mpr ⟨by omega, by omega⟩
    have hEy := E_le y
    obtain ⟨z, hz, hS, hE, hMz⟩ := renormalise_of_range (S y) (EL := E y) hC (by omega) (by omega)
    rw [hlog] at hE hMz
    rw [hz, word_ext_fields hS (y := y) (by omega) (by omega)]

/-! ### add by the aligned sum -/

/-- `add` renormalises the aligned sum. -/
theorem add_eq_renormalise {a b : Word} (ha : E a ≠ 31) (hb : E b ≠ 31) :
    add a b = renormalise (decide (alignedSum a b < 0)) (max (E a) (E b)) (alignedSum a b).natAbs := by
  have hadd : add a b = renormalise (combineBySign (S a) (S b) (alignOperands a b).ma (alignOperands a b).mb).2 (alignOperands a b).EL
      (combineBySign (S a) (S b) (alignOperands a b).ma (alignOperands a b).mb).1 := (if_neg ha).trans (if_neg hb)
  have hsum : alignedSum a b = signOf a * ((alignOperands a b).ma : Int) + signOf b * ((alignOperands a b).mb : Int) := by
    rw [alignedSum, signedAligned_eq, signedAligned_eq, alignOperands_eq, E_eq_expOf, E_eq_expOf]
  rw [hadd, alignOperands_EL]
  exact renormalise_of_signed _ (hsum.trans (combineBySign_signed _ _ _ _).symm)

/-- A zero sum has the exponent 0 and no sign (R174). -/
theorem add_of_alignedSum_eq_zero {a b : Word} (ha : E a ≠ 31) (hb : E b ≠ 31) (h : alignedSum a b = 0) : add a b = .value 0x0000 := by
  rw [add_eq_renormalise ha hb, h, Int.natAbs_zero, renormalise_zero]

/-- Only two infinities are told apart by their order. -/
theorem add_comm_of_finite {a b : Word} (ha : E a ≠ 31) (hb : E b ≠ 31) : add a b = add b a := by
  rw [add_eq_renormalise ha hb, add_eq_renormalise hb ha, alignedSum_comm, max_comm]

/-! ### Adding a zero (R176) -/

theorem signOf_ne_zero (x : Word) : signOf x ≠ 0 :=
  Int.natAbs_ne_zero.mp (ne_of_eq_of_ne (natAbs_signOf x) Nat.one_ne_zero)

/-- A zero's mantissa is that of 1.0, its implicit bit set like any other. -/
theorem alignedSum_zero_left {z : Word} (hE : E z = 0) (hM : M z = 0) (x : Word) :
    alignedSum z x = signOf z * (1024 / 2 ^ E x : Nat) + signOf x * (1024 + M x : Nat) := by
  rw [alignedSum, ← E_eq_expOf, ← E_eq_expOf, hE, max_eq_right (Nat.zero_le _), signedAligned_self, signedAligned_eq, hE, hM, Nat.sub_zero]

/-- That mantissa is shifted out from the distance 11 on. -/
theorem implicit_shifted_out_iff (e : Nat) : 1024 / 2 ^ e = 0 ↔ 11 ≤ e := by
  rw [Nat.div_eq_zero_iff_lt (Nat.two_pow_pos _)]
  exact Nat.pow_lt_pow_iff_right (a := 2) (n := 10) (by decide)

/-- A sum that is not zero is the word itself exactly where the zero's mantissa is shifted out. -/
theorem add_zero_eq_value_iff {x z : Word} (hx : E x ≠ 31) (hE : E z = 0) (hM : M z = 0) (h : alignedSum z x ≠ 0) :
    add z x = .value x ↔ 11 ≤ E x := by
  rw [add_eq_renormalise (by omega) hx, hE, max_eq_right (Nat.zero_le _), renormalise_eq_value_iff _ (Int.natAbs_pos.mpr h),
    ← eq_signed_iff (by omega), ← signOf, alignedSum_zero_left hE hM, add_eq_right, mul_eq_zero_iff_left (signOf_ne_zero z),
    Nat.cast_eq_zero, implicit_shifted_out_iff]

/-! ### The obligations -/

/-- Settles O28: add renormalises the aligned sum, whose leading 1 stands at position 11 at most, and at 10 at least where the signs agree. -/
theorem addIsTruncatedSignedSum : Obligations.AddIsTruncatedSignedSum := by
  intro a b s EL T ha hb hEL hT
  rw [← E_eq_expOf] at ha hb
  obtain rfl : T = alignedSum a b := by rw [hT, hEL, alignedSum]
  obtain rfl : EL = max (E a) (E b) := by rw [hEL, E_eq_expOf, E_eq_expOf]
  have ha' := E_le a
  have hb' := E_le b
  refine ⟨encode_add a b ▸ decode_encode rfl, fun hzero => ?zero, fun d hlo hhi => ?_⟩
  case zero =>
    rw [exec_add, add_of_alignedSum_eq_zero ha hb hzero]
    rfl
  have hpos : 0 < (alignedSum a b).natAbs := (Nat.two_pow_pos d).trans_le hlo
  have hlog : (alignedSum a b).natAbs.log2 = d := (Nat.log2_eq_iff hpos.ne').mpr ⟨hlo, hhi⟩
  have hd : d < 12 := (Nat.pow_lt_pow_iff_right (by decide)).mp (hlo.trans_lt (natAbs_alignedSum_lt a b))
  refine ⟨fun hrange => ⟨by omega, ?word⟩, fun hunder => ⟨fun hsign => ?sign, by omega, ?draw⟩⟩
  case word =>
    obtain ⟨y, hy, hS, hE, hM⟩ :=
      renormalise_of_range (decide (alignedSum a b < 0)) hpos (EL := max (E a) (E b)) (by omega) (by omega)
    rw [hlog] at hE hM
    rw [exec_add, add_eq_renormalise ha hb, hy, respond_value, setWidth_eq_wordNat, hS, hE, hM]
  case sign =>
    have hd' : 10 < d + 1 := (Nat.pow_lt_pow_iff_right (a := 2) (by decide)).mp ((le_natAbs_alignedSum hsign).trans_lt hhi)
    omega
  case draw =>
    rw [exec_add, add_eq_renormalise ha hb, renormalise_of_not_range _ hpos (by omega)]
    rfl

/-- Settles O30: from the exponent 11 on the zero's mantissa is shifted out; below it is not, and a sum that is 0 is the word +0. -/
theorem addOfZero : Obligations.AddOfZero := by
  intro x z hz
  have hE : E z = 0 := by rcases hz with rfl | rfl <;> rfl
  have hM : M z = 0 := by rcases hz with rfl | rfl <;> rfl
  rw [← E_eq_expOf]
  refine ⟨fun hlo hhi => ?kept, fun hle hne => ?changed, ?opposite⟩
  case kept =>
    have hx : E x ≠ 31 := by omega
    have hsum : alignedSum z x ≠ 0 := by
      rw [alignedSum_zero_left hE hM, (implicit_shifted_out_iff _).mpr hlo, Nat.cast_zero, mul_zero, zero_add]
      exact mul_ne_zero (signOf_ne_zero x) (by omega)
    have hadd := (add_zero_eq_value_iff hx hE hM hsum).mpr hlo
    exact ⟨hadd, add_comm_of_finite (a := z) (by omega) hx ▸ hadd⟩
  case changed =>
    have hx : E x ≠ 31 := by omega
    have hadd : add z x ≠ .value x := by
      intro h
      by_cases hsum : alignedSum z x = 0
      · rw [add_of_alignedSum_eq_zero (by omega) hx hsum] at h
        obtain rfl : 0x0000 = x := Result.value.inj h
        rcases hz with rfl | rfl
        · exact absurd hsum (by decide)
        · exact hne ⟨rfl, rfl⟩
      · have := (add_zero_eq_value_iff hx hE hM hsum).mp h
        omega
    exact ⟨hadd, add_comm_of_finite (a := z) (by omega) hx ▸ hadd⟩
  case opposite => rcases hz with rfl | rfl <;> rfl

/-- Settles O27: the two tests for an infinity, `a` first. -/
theorem addPassesInfinity : Obligations.AddPassesInfinity := by
  intro a b s
  rw [← E_eq_expOf, ← E_eq_expOf, exec_add]
  exact ⟨fun ha => by rw [add_of_inf_left b ha, respond_value], fun ha hb => by rw [add_of_inf_right ha hb, respond_value]⟩

/-- Settles O29: subtract is defined through add and negate, which flips the sign bit. -/
theorem subtractIsAddOfNegated : Obligations.SubtractIsAddOfNegated :=
  fun a b s => ⟨encode_subtract a b ▸ decode_encode rfl, _, exec_subtract a b s, exec_add a (negate b) s⟩

end Sys2Proof.Machine
end

section
/-! PROOFS. The multiplier (44_multiplier.md R200 to R209), path by path. On the significand path the product is one number: the raw
magnitude is that of the exponent and the renormalised significand, plus the round bit, saturated at the infinity. -/

namespace Sys2Proof.Machine

/-! ### The request and its answer -/

/-- The request word of MUL (30_encoding.md R78, R79). -/
theorem encode_multiply (a b : Word) : encode (.multiply a b) = 0x8#4 ++ 0#12 ++ 0#16 ++ a ++ b :=
  (Request.append_eq_ofFields _ _ _ _ _).symm

/-- MUL writes the response alone. -/
theorem exec_multiply_of_eq {a b y : Word} {s : State} (h : multiply s.mulRound a b = y) :
    exec (.multiply a b) s = .next { s with resp := some (y.setWidth 32) } := by
  rw [exec_multiply, h]
  rfl

theorem rawMagnitude_eq_zero_iff (x : Word) : rawMagnitude x = 0 ↔ x &&& 0x7FFF#16 = 0 :=
  BitVec.toNat_inj (y := 0#16)

theorem setWidth_signedZero_xor (sa sb : Bool) :
    (signedZero (sa ^^ sb)).setWidth 32 = if sa = sb then 0 else 0x8000 := by
  cases sa <;> cases sb <;> rfl

theorem setWidth_signedInf_xor (sa sb : Bool) :
    (signedInf (sa ^^ sb)).setWidth 32 = if sa = sb then 0x7C00 else 0xFC00 := by
  cases sa <;> cases sb <;> rfl

/-- A response holds the sign of its word above the raw magnitude. -/
theorem setWidth_eq_rawMagnitude (y : Word) : y.setWidth 32 = BitVec.ofNat 32 ((S y).toNat * 32768 + rawMagnitude y) := by
  rw [setWidth_eq_wordNat, wordNat, rawMagnitude_eq, Nat.add_assoc]

/-! ### The paths (R202 to R204), each symmetric in the operands -/

section
variable {a b : Word} (rd : MulRoundReading)

theorem multiply_of_inf (hzero : ¬ (rawMagnitude a = 0 ∨ rawMagnitude b = 0)) (hinf : E a = 31 ∨ E b = 31) :
    multiply rd a b = signedInf (S a ^^ S b) :=
  (if_neg hzero).trans (if_pos hinf)

/-- Exponents that sum to at most the bias leave no room for an infinity. -/
theorem multiply_of_underflow (hzero : ¬ (rawMagnitude a = 0 ∨ rawMagnitude b = 0)) (h : E a + E b ≤ 15) : multiply rd a b = 0 :=
  have hinf : ¬ (E a = 31 ∨ E b = 31) := by omega
  have hflush : (E a : Int) + E b - 15 ≤ 0 := by omega
  (if_neg hzero).trans ((if_neg hinf).trans (if_pos hflush))

/-- Off the underflow path the sign is the exclusive or of the operands' signs (R201). -/
theorem S_multiply (h : (rawMagnitude a = 0 ∨ rawMagnitude b = 0) ∨ 15 < E a + E b) : S (multiply rd a b) = (S a ^^ S b) := by
  by_cases hzero : rawMagnitude a = 0 ∨ rawMagnitude b = 0
  · rw [multiply_of_zero rd hzero, S_signedZero]
  by_cases hinf : E a = 31 ∨ E b = 31
  · rw [multiply_of_inf rd hzero hinf, S_signedInf]
  · rw [multiply_of_significand rd hzero hinf (h.resolve_left hzero), S_multiplySignificand]

end

theorem productSignificand_comm (ma mb : Nat) : productSignificand ma mb = productSignificand mb ma := by
  rw [productSignificand, productSignificand, Nat.mul_comm, Nat.add_right_comm]

theorem multiplySignificand_comm (rd : MulRoundReading) (s : Bool) (ce : Int) (ma mb : Nat) :
    multiplySignificand rd s ce ma mb = multiplySignificand rd s ce mb ma := by
  simp only [multiplySignificand, productSignificand_comm ma mb]

theorem multiply_comm (rd : MulRoundReading) (a b : Word) : multiply rd a b = multiply rd b a := by
  by_cases hzero : rawMagnitude a = 0 ∨ rawMagnitude b = 0
  · rw [multiply_of_zero rd hzero, multiply_of_zero rd hzero.symm, Bool.xor_comm]
  have hzero' := mt Or.symm hzero
  by_cases hinf : E a = 31 ∨ E b = 31
  · rw [multiply_of_inf rd hzero hinf, multiply_of_inf rd hzero' hinf.symm, Bool.xor_comm]
  rcases Nat.lt_or_ge 15 (E a + E b) with hce | hce
  · rw [multiply_of_significand rd hzero hinf hce, multiply_of_significand rd hzero' (mt Or.symm hinf) (by omega), Bool.xor_comm,
      Int.add_comm, multiplySignificand_comm]
  · rw [multiply_of_underflow rd hzero hce, multiply_of_underflow rd hzero' (by omega)]

/-! ### The rounding step (R207) -/

theorem roundStep_fst_of_no_carry {rbit : Bool} {m : Nat} (ce : Int) (h : rbit = true → m + 1 ≠ 1024) : (roundStep rbit ce m).1 = ce := by
  unfold roundStep
  split_ifs with hround hcarry
  · exact absurd hcarry (h hround.1)
  · rfl
  · rfl

/-- At 30 the step is suppressed, and below it a carry adds 1. -/
theorem roundStep_fst_le (rbit : Bool) {ce : Int} (m : Nat) (h : ce ≤ 30) : (roundStep rbit ce m).1 ≤ 30 := by
  unfold roundStep
  split_ifs with hround
  · have := hround.2
    dsimp only
    omega
  · exact h
  · exact h

/-- On raw integers the step adds the round bit, whether it carries or not. -/
theorem roundStep_raw_eq (rbit : Bool) (e m : Nat) :
    (roundStep rbit e m).1.toNat * 1024 + (roundStep rbit e m).2 = e * 1024 + m + if rbit = true ∧ e ≠ 30 then 1 else 0 := by
  have he : (e : Int) ≠ 30 ↔ e ≠ 30 := by omega
  simp only [roundStep, he]
  split_ifs <;> dsimp only <;> omega

/-! ### The significand path (R205 to R208) -/

section
variable {ma mb : Nat} (ha : ma ≤ 1023) (hb : mb ≤ 1023)
include ha hb

theorem productSignificand_le : productSignificand ma mb ≤ 4092 := by
  have hmul : ma * mb ≤ 1023 * 1023 := Nat.mul_le_mul ha hb
  rw [productSignificand, Nat.shiftRight_eq_div_pow]
  omega

variable {U sh : Nat} (hU : U = productSignificand ma mb) (hsh : sh = if U < 2048 then 0 else 1)
include hU hsh

/-- The shift by 1 occurs where the significand is 2.0 or more, and brings it back below 2.0. -/
theorem renormalise_shift : U.testBit 11 = decide (sh = 1) ∧ sh ≤ 1 ∧ 1024 ≤ U / 2 ^ sh ∧ U / 2 ^ sh + sh < 2048 := by
  have hlo := (productSignificand_bounds ha hb).1
  have hhi := productSignificand_le ha hb
  rw [hU, productSignificand_testBit ha hb, ← hU]
  split_ifs at hsh <;> subst hsh <;> exact ⟨decide_eq_decide.mpr (by omega), by omega⟩

/-- The mask removes the leading 1 of the renormalised significand. -/
theorem renormalise_mantissa : mask10 (if U.testBit 11 = true then U >>> 1 else U) = U / 2 ^ sh - 1024 := by
  obtain ⟨hbit, hsh', hlo, hhi⟩ := renormalise_shift ha hb hU hsh
  rw [mask10_eq_mod, hbit]
  rcases Nat.le_one_iff_eq_zero_or_eq_one.mp hsh' with rfl | rfl
  · simp only [zero_ne_one, decide_false, Bool.false_eq_true, if_false]
    omega
  · simp only [decide_true, if_true, Nat.shiftRight_eq_div_pow]
    omega

theorem renormalise_exponent (ce : Nat) : (if U.testBit 11 = true then (ce : Int) + 1 else ce) = (ce + sh : Nat) := by
  obtain ⟨hbit, hsh', -⟩ := renormalise_shift ha hb hU hsh
  rcases Nat.le_one_iff_eq_zero_or_eq_one.mp hsh' with rfl | rfl
  · rw [hbit]; rfl
  · rw [hbit]; rfl

theorem roundBit_eq_true_iff (rd : MulRoundReading) :
    roundBit rd (U.testBit 11) U = true ↔ U % 2 = 1 ∧ (rd = .always ∨ sh = 1) := by
  rw [(renormalise_shift ha hb hU hsh).1]
  cases rd <;> simp [roundBit, and_comm]

/-- The product as one number on raw integers. -/
theorem rawMagnitude_multiplySignificand_eq (rd : MulRoundReading) (s : Bool) (ce : Nat) :
    rawMagnitude (multiplySignificand rd s ce ma mb) =
      min ((ce + sh) * 1024 + (U / 2 ^ sh - 1024) + if U % 2 = 1 ∧ ce + sh ≠ 30 ∧ (rd = .always ∨ sh = 1) then 1 else 0) 31744 := by
  have hround : (roundBit rd (U.testBit 11) U = true ∧ ce + sh ≠ 30) ↔ (U % 2 = 1 ∧ ce + sh ≠ 30 ∧ (rd = .always ∨ sh = 1)) := by
    rw [roundBit_eq_true_iff ha hb hU hsh, and_right_comm, and_assoc]
  unfold multiplySignificand
  simp only [← hU, renormalise_mantissa ha hb hU hsh, renormalise_exponent ha hb hU hsh]
  rw [rawMagnitude_saturate s _ (roundStep_raw _ _ (Int.natCast_nonneg _)).1, roundStep_raw_eq]
  simp only [hround]

/-- Under ON_SHIFT a round bit means a shift, and a significand of at most 4092 leaves room below the carry. -/
theorem roundStep_onShift_fst (ce : Int) :
    (roundStep (roundBit .onShift (U.testBit 11) U) ce (mask10 (if U.testBit 11 = true then U >>> 1 else U))).1 = ce := by
  refine roundStep_fst_of_no_carry ce fun hbit => ?_
  obtain rfl : sh = 1 := ((roundBit_eq_true_iff ha hb hU hsh .onShift).mp hbit).2.resolve_left nofun
  obtain ⟨-, -, hlo, hhi⟩ := renormalise_shift ha hb hU hsh
  rw [renormalise_mantissa ha hb hU hsh]
  omega

end

/-- Saturated on raw integers, in the fields that a carry past the leading 1 leaves. -/
theorem wordNat_saturated (neg : Bool) {e W : Nat} (hlo : 1024 ≤ W) (hhi : W ≤ 2048) :
    neg.toNat * 32768 + min (e * 1024 + (W - 1024)) 31744 =
      if e + W / 2048 ≥ 31 then wordNat neg 31 0 else wordNat neg (e + W / 2048) (W % 1024) := by
  unfold wordNat
  split_ifs <;> omega

/-! ### The obligations -/

/-- Settles O32: the test for a zero comes first. -/
theorem multiplyZeroFirst : Obligations.MultiplyZeroFirst := by
  intro a b s h
  rw [← rawMagnitude_eq_zero_iff, ← rawMagnitude_eq_zero_iff] at h
  rw [exec_multiply_of_eq (multiply_of_zero _ h), setWidth_signedZero_xor, S_eq_isNeg, S_eq_isNeg]

/-- Settles O33: the test for an infinity comes next. -/
theorem multiplyInfinity : Obligations.MultiplyInfinity := by
  intro a b s ha hb h
  rw [ne_eq, ← rawMagnitude_eq_zero_iff] at ha hb
  rw [← E_eq_expOf, ← E_eq_expOf] at h
  rw [exec_multiply_of_eq (multiply_of_inf _ (not_or.mpr ⟨ha, hb⟩) h), setWidth_signedInf_xor, S_eq_isNeg, S_eq_isNeg]

/-- Settles O34: the flush to +0. -/
theorem multiplyFlushesToZero : Obligations.MultiplyFlushesToZero := by
  intro a b s ha hb _ _ h
  rw [ne_eq, ← rawMagnitude_eq_zero_iff] at ha hb
  rw [← E_eq_expOf, ← E_eq_expOf] at h
  exact exec_multiply_of_eq (multiply_of_underflow _ (not_or.mpr ⟨ha, hb⟩) h)

/-- Settles O35: the response's sign and raw magnitude, which is one number until it is saturated. -/
theorem multiplySignificandPath : Obligations.MultiplySignificandPath := by
  intro a b s U sh e r W ha hb ha' hb' hexp hU hsh he hr hW
  refine ⟨encode_multiply a b ▸ decode_encode rfl, ?_⟩
  rw [ne_eq, ← rawMagnitude_eq_zero_iff] at ha hb
  rw [← E_eq_expOf] at ha' hb'
  rw [← E_eq_expOf, ← E_eq_expOf] at hexp he
  have hU' : U = productSignificand (M a) (M b) := by
    rw [hU, productSignificand, Nat.shiftRight_eq_div_pow, M_eq_manOf, M_eq_manOf]
  obtain ⟨-, -, hlo, hhi⟩ := renormalise_shift (M_le a) (M_le b) hU' hsh
  have hprod := multiply_of_significand s.mulRound (not_or.mpr ⟨ha, hb⟩) (not_or.mpr ⟨ha', hb'⟩) hexp
  have hce : (E a : Int) + E b - 15 = (E a + E b - 15 : Nat) := by omega
  have hr' : r ≤ 1 := by rw [hr]; split <;> decide
  rw [hce] at hprod
  rw [exec_multiply_of_eq hprod, setWidth_eq_rawMagnitude, S_multiplySignificand,
    rawMagnitude_multiplySignificand_eq (M_le a) (M_le b) hU' hsh, ← he, ← hr,
    ← S_eq_isNeg, ← S_eq_isNeg, ← wordNat_saturated _ (by omega) (by omega), hW, Nat.add_assoc, ← Nat.sub_add_comm hlo]

/-- Settles O36: the sign of each path. -/
theorem multiplySign : Obligations.MultiplySign := by
  intro rd a b
  rw [ne_eq, ne_eq, ← rawMagnitude_eq_zero_iff, ← rawMagnitude_eq_zero_iff, ← E_eq_expOf, ← E_eq_expOf, ← S_eq_isNeg, ← S_eq_isNeg,
    ← S_eq_isNeg]
  exact ⟨fun ⟨ha, hb, h⟩ => multiply_of_underflow rd (not_or.mpr ⟨ha, hb⟩) h, fun h => S_multiply rd (by omega)⟩

/-- Settles O37: each path is symmetric, and a product's raw magnitude is 0 or from 0x0400 to 0x7C00. -/
theorem multiplyLaws : Obligations.MultiplyLaws :=
  fun rd a b => ⟨multiply_comm rd a b, classOf_of_rawMagnitude (rawMagnitude_multiply_range rd a b)⟩

/-- Settles O38: the range of the significand, the carry that needs a mantissa of 1023, and the product that reaches it. -/
theorem roundingCarry : Obligations.RoundingCarry := by
  refine ⟨fun ma mb ha hb => ⟨?lower, productSignificand_le ha hb, fun ce => roundStep_onShift_fst ha hb rfl rfl ce⟩,
    fun rbit ce m h => roundStep_fst_le rbit m h, by decide, by decide⟩
  case lower =>
    have := (productSignificand_bounds ha hb).1
    omega

end Sys2Proof.Machine
end

section
/-! PROOFS. The divider (45_divider.md R230, R231): a division is a product with the divisor's reciprocal, so each corner is a corner of
multiply at that reciprocal. -/

namespace Sys2Proof.Machine

/-- The request word of DIV (30_encoding.md R78, R79). -/
theorem encode_divide (a b : Word) : encode (.divide a b) = 0x9#4 ++ 0#12 ++ 0#16 ++ a ++ b :=
  (Request.append_eq_ofFields _ _ _ _ _).symm

theorem signedZero_xor (sa sb : Bool) : signedZero (sa ^^ sb) = if sa = sb then 0x0000 else 0x8000 := by
  cases sa <;> cases sb <;> rfl

theorem signedInf_xor (sa sb : Bool) : signedInf (sa ^^ sb) = if sa = sb then 0x7C00 else 0xFC00 := by
  cases sa <;> cases sb <;> rfl

@[simp] theorem E_signedInf (s : Bool) : E (signedInf s) = 31 := by cases s <;> rfl

/-- The two steps take a zero's seed to the canonical infinity, under either reading (42_reciprocal_nr.md R153). -/
theorem estimate_zero (rd : MulRoundReading) : estimate rd 0 = 0x7C00 := by cases rd <;> decide

/-- The reciprocal of a zero is the infinity of its sign (42_reciprocal_nr.md R153). -/
theorem reciprocal_of_zero (rd : MulRoundReading) {x : Word} (h : rawMagnitude x = 0) : reciprocal rd x = signedInf (S x) := by
  have habs : absWord x = 0 := (rawMagnitude_eq_zero_iff x).mp h
  rw [reciprocal_of_lt rd (by rw [habs]; decide), habs, estimate_zero]
  exact BitVec.or_comm _ _

/-! ### The corners (R231) -/

section
variable (rd : MulRoundReading) {a b : Word}

theorem divide_by_zero (ha : rawMagnitude a ≠ 0) (hb : rawMagnitude b = 0) : divide rd a b = signedInf (S a ^^ S b) := by
  have hinf : rawMagnitude (signedInf (S b)) ≠ 0 := by rw [rawMagnitude_signedInf]; decide
  rw [divide, reciprocal_of_zero rd hb, multiply_of_inf rd (not_or.mpr ⟨ha, hinf⟩) (.inr (E_signedInf _)), S_signedInf]

/-- The test for a zero dividend comes before the infinite reciprocal. -/
theorem divide_zero_by_zero (ha : rawMagnitude a = 0) (hb : rawMagnitude b = 0) : divide rd a b = signedZero (S a ^^ S b) := by
  rw [divide, reciprocal_of_zero rd hb, multiply_of_zero rd (.inl ha), S_signedInf]

/-- From the threshold on the reciprocal is +0, whatever the divisor's sign. -/
theorem divide_by_large (hb : 0x7780 ≤ (absWord b).toNat) : divide rd a b = signedZero (S a) := by
  rw [divide, reciprocal_of_ge rd hb, multiply_of_zero rd (.inr rfl)]
  exact congrArg signedZero (Bool.xor_false _)

theorem divide_of_inf (ha : E a = 31) (hr : rawMagnitude (reciprocal rd b) ≠ 0) :
    divide rd a b = signedInf (S a ^^ S (reciprocal rd b)) :=
  multiply_of_inf_left rd ha hr

end

/-! ### The obligations -/

/-- Settles O44: the corners, with the combined sign written as a comparison of the two signs. -/
theorem divideCorners : Obligations.DivideCorners := by
  intro rd a b
  simp only [ne_eq, ← rawMagnitude_eq_zero_iff, ← E_eq_expOf, ← S_eq_isNeg, ← signedZero_xor, ← signedInf_xor]
  exact ⟨fun ha _ hb => divide_by_zero rd ha hb, divide_zero_by_zero rd, divide_by_large rd, divide_of_inf rd⟩

/-- Settles O43: both requests answer the product of the dividend and the word RECIP answers for the divisor. -/
theorem divideIsMultiplyByReciprocal : Obligations.DivideIsMultiplyByReciprocal := by
  intro a b s
  refine ⟨?decodes, reciprocal s.mulRound b, exec_reciprocal b s, ?product, _, exec_divide a b s⟩
  case decodes => exact encode_divide a b ▸ decode_encode rfl
  case product => rw [exec_divide, exec_multiply, divide]

end Sys2Proof.Machine
end

section
/-! PROOFS. Exceptions (60_exceptions.md): there are none, so every instruction completes; what the rules leave open instead is a draw, and
it is taken exactly where an exponent leaves its range. -/

namespace Sys2Proof.Machine

/-! ### The draws of an instruction (R242) -/

/-- How many draws an instruction takes, whatever the state: those of the one result it may leave open (log 3). -/
def drawsTaken : Instr → Nat
  | .fromInt n => (fromInt n).drawCount
  | .fromIntWithDecimal n _ => (fromInt n).drawCount
  | .add a b => (add a b).drawCount
  | .subtract a b => (subtract a b).drawCount
  | .toInt _ | .negate _ | .abs _ | .reciprocal _ | .multiply _ _ | .divide _ _ => 0

theorem exec_draws {i : Instr} {s t : State} (h : exec i s = .next t) : t.draws = s.draws + drawsTaken i := by
  cases i <;> cases h <;> rfl

/-- from_int has a draw exactly where its exponent would exceed 31 (41_integer_conversion.md R121). -/
theorem fromInt_drawCount_ne_zero_iff (n : Int) : (fromInt n).drawCount ≠ 0 ↔ 131072 ≤ n.natAbs := by
  by_cases hge : 131072 ≤ n.natAbs
  · simp [fromInt_of_ge hge, hge]
  obtain rfl | hn := eq_or_ne n 0
  · decide
  · obtain ⟨y, hy, _⟩ := fromInt_hasFieldsOf hn (by omega)
    simp [hy, hge]

/-! ### The underflow of a sum (43_adder.md R174, R175) -/

theorem sumUnderflows_iff (a b : Word) :
    sumUnderflows a b = true ↔ alignedSum a b ≠ 0 ∧ max (E a) (E b) + (alignedSum a b).natAbs.log2 < 10 := by
  rw [sumUnderflows, decide_eq_true_iff, E_eq_expOf, E_eq_expOf]

/-- An infinity operand's exponent alone is too large to underflow. -/
theorem not_sumUnderflows_of_inf {a b : Word} (h : E a = 31 ∨ E b = 31) : ¬ sumUnderflows a b = true := by
  rw [sumUnderflows_iff]
  omega

/-- Two finite operands' exponent never exceeds 31, so only a negative one is out of range. -/
theorem renormalise_drawCount_ne_zero_iff (s : Bool) {EL C : Nat} (hEL : EL ≤ 30) (hC : C < 4096) :
    (renormalise s EL C).drawCount ≠ 0 ↔ C ≠ 0 ∧ EL + C.log2 < 10 := by
  obtain rfl | hpos := Nat.eq_zero_or_pos C
  · simp [renormalise_zero]
  have hlog : C.log2 < 12 := (Nat.log2_lt hpos.ne').mpr hC
  by_cases hlo : 10 ≤ EL + C.log2
  · obtain ⟨y, hy, _⟩ := renormalise_of_range s hpos hlo (by omega)
    simp [hy, hlo]
  · rw [renormalise_of_not_range s hpos (fun h => hlo h.1), drawCount_unspecified]
    omega

/-- add has a draw exactly where its sum underflows. -/
theorem add_drawCount_ne_zero_iff (a b : Word) : (add a b).drawCount ≠ 0 ↔ sumUnderflows a b = true := by
  by_cases ha : E a = 31
  · simp [add_of_inf_left b ha, not_sumUnderflows_of_inf (.inl ha)]
  by_cases hb : E b = 31
  · simp [add_of_inf_right ha hb, not_sumUnderflows_of_inf (.inr hb)]
  have hEL : max (E a) (E b) ≤ 30 := by
    have := E_le a
    have := E_le b
    omega
  rw [add_eq_renormalise ha hb, renormalise_drawCount_ne_zero_iff _ hEL (natAbs_alignedSum_lt a b), sumUnderflows_iff, Int.natAbs_ne_zero]

/-- Operands of one sign do not cancel, so their sum's leading 1 stands at position 10 at least. -/
theorem isNeg_ne_of_sumUnderflows {a b : Word} (h : sumUnderflows a b = true) : isNeg a ≠ isNeg b := by
  intro hsign
  obtain ⟨hne, hlt⟩ := (sumUnderflows_iff a b).mp h
  have hlog : 10 ≤ (alignedSum a b).natAbs.log2 := (Nat.le_log2 (Int.natAbs_ne_zero.mpr hne)).mpr (le_natAbs_alignedSum hsign)
  omega

/-! ### The obligations -/

/-- Settles O13: the shape of every answer is a next state. -/
theorem everyInstructionCompletes : Obligations.EveryInstructionCompletes := by
  intro i s
  obtain ⟨_, _, _, hx⟩ := exec_shape i s
  exact ⟨_, hx⟩

/-- Settles O15: the count moves by the draws of the instruction's own result, and from_int and add say where those are. -/
theorem drawsOnlyWhereUnspecified : Obligations.DrawsOnlyWhereUnspecified := by
  refine ⟨fun i s t h => ?draws, fun a b h => ⟨isNeg_ne_of_sumUnderflows h, ?region⟩⟩
  case draws =>
    rw [exec_draws h, ne_eq, Nat.add_eq_left]
    cases i with
    | fromInt n => exact fromInt_drawCount_ne_zero_iff n
    | fromIntWithDecimal n _ => exact fromInt_drawCount_ne_zero_iff n
    | add a b => exact add_drawCount_ne_zero_iff a b
    | subtract a b => exact add_drawCount_ne_zero_iff a (negate b)
    | _ => exact iff_of_false (not_not_intro rfl) not_false
  case region =>
    obtain ⟨_, hlt⟩ := (sumUnderflows_iff a b).mp h
    rw [← E_eq_expOf, ← E_eq_expOf]
    omega

end Sys2Proof.Machine
end

section
/-! PROOFS. Reset and hazards (70_reset_and_hazards.md R270, R272): a response read before any request faults, and one read after a request
gives the word delivered. -/

namespace Sys2Proof.Machine

/-- Where a response stands in the port, reading gives it (30_encoding.md R81). -/
theorem readResponse_of_resp_some {s : State} {r : Response} (h : s.resp = some r) : readResponse s = .next r := by
  simp only [readResponse, h]

/-! ### The obligations -/

/-- Settles O11: every answer is a next state with a response in its port, and that response is what the host reads. -/
theorem responseReadableAfterRequest : Obligations.ResponseReadableAfterRequest := by
  intro i s
  obtain ⟨r, _, _, hx⟩ := exec_shape i s
  exact ⟨_, r, hx, readResponse_of_resp_some rfl, rfl⟩

end Sys2Proof.Machine
end

section
/-! PROOFS. The laws of the adder (43_adder.md section 3): two infinities are the only operands told apart by their order, and negating a word
negates its aligned mantissa, so the two cancel. -/

namespace Sys2Proof.Machine

/-! ### Addition commutes -/

/-- The infinity is the answer on either side of a word that is none (R171). -/
theorem add_comm_of_inf {a b : Word} (ha : E a = 31) (hb : E b ≠ 31) : add a b = add b a := by
  rw [add_of_inf_left b ha, add_of_inf_right hb ha]

/-! ### A word cancels with its negation -/

theorem signOf_negate (x : Word) : signOf (negate x) = -signOf x := by
  rw [signOf, signOf, S_negate]
  cases S x <;> rfl

theorem signedAligned_negate (EL : Nat) (x : Word) : signedAligned EL (negate x) = -signedAligned EL x := by
  rw [signedAligned_eq, signedAligned_eq, signOf_negate, E_negate, M_negate, neg_mul]

theorem alignedSum_negate (x : Word) : alignedSum x (negate x) = 0 := by
  rw [alignedSum, ← E_eq_expOf, ← E_eq_expOf, E_negate, signedAligned_negate, add_neg_cancel]

theorem add_negate {x : Word} (hx : E x ≠ 31) : add x (negate x) = .value 0x0000 :=
  add_of_alignedSum_eq_zero hx ((E_negate x).symm ▸ hx) (alignedSum_negate x)

/-! ### The obligations -/

/-- Settles O31: operands with one infinity give it in either order, and those with none are renormalised from one sum; subtract adds the
negation. -/
theorem addLaws : Obligations.AddLaws := by
  refine ⟨fun a b hinf => ?comm, fun x hx => ?cancel⟩
  case comm =>
    rw [← E_eq_expOf, ← E_eq_expOf] at hinf
    by_cases ha : E a = 31
    · exact add_comm_of_inf ha fun hb => hinf ⟨ha, hb⟩
    · by_cases hb : E b = 31
      · exact (add_comm_of_inf hb ha).symm
      · exact add_comm_of_finite ha hb
  case cancel =>
    rw [← E_eq_expOf] at hx
    exact ⟨add_negate hx, add_negate hx⟩

end Sys2Proof.Machine
end

section
/-! PROOFS. The host after reset (95_test_vectors.md part 3): no variable is written and no program is loaded, so the two invariants of a step
hold from the start. -/

namespace Sys2Proof.Machine

/-- Settles O49: the variables and the program of reset are empty lists. -/
theorem resetHostInOrder : Obligations.ResetHostInOrder :=
  ⟨(hostOk_iff _).mpr ⟨rfl, nofun⟩, (wellKinded_iff _).mpr rfl⟩

end Sys2Proof.Machine
end
